-- ==== Sys2Proof/Word.lean ====
section
/-! DEFINITION. The plain value types of the core: spec/00_scope.md R8, R14 and R17. -/

namespace Sys2Proof

/-- A register, timer or memory cell: 8 bits, unsigned (R8, R14). -/
abbrev Byte := BitVec 8

/-- An instruction word, and the width of I, pc and the stack slots: 16 bits (R8, R70). -/
abbrev Word := BitVec 16

/-- The `nnn` field: a 12-bit address (R17). -/
abbrev Addr12 := BitVec 12

/-- A register number, the `x` or `y` field (R17, R22). -/
abbrev Reg := Fin 16

/-- The row count `n` of DRW: 0 to 15 (R17, R72). -/
abbrev Rows := Fin 16

/-- A key index, 0x0 to 0xF (R32). -/
abbrev Key := Fin 16

/-- `PROGRAM_START`: where programs load and where pc starts (R8). -/
def programStart : Word := 0x200

/-- `MEM_SIZE` (R8): addresses run from 0 to `memSize - 1`. -/
def memSize : Nat := 4096

/-- VF, the register that is also the flag (R23). -/
abbrev vf : Reg := 15

end Sys2Proof
end

