-- ==== Sys2Proof/Syntax.lean ====
section
/-! DEFINITION. The instructions: the closed set of 36 operation tags of spec/30_encoding.md R74, each with the fields
its row of the opcode map uses (R76). -/

namespace Sys2Proof

/-- One constructor per row of spec/opcode_table.json, named after its tag (R74). -/
inductive Instr where
  /-- SYS nnn, 0nnn (R100) -/
  | sys (nnn : Addr12)
  /-- CLS, 00E0 (R195) -/
  | clearScreen
  /-- RET, 00EE (R101) -/
  | ret
  /-- JP nnn, 1nnn (R103) -/
  | jump (nnn : Addr12)
  /-- CALL nnn, 2nnn (R102) -/
  | callSubroutine (nnn : Addr12)
  /-- SE Vx, kk, 3xkk (R105) -/
  | skipIfEqualByte (x : Reg) (kk : Byte)
  /-- SNE Vx, kk, 4xkk (R106) -/
  | skipIfNotEqualByte (x : Reg) (kk : Byte)
  /-- SE Vx, Vy, 5xy0 (R107) -/
  | skipIfEqualReg (x y : Reg)
  /-- LD Vx, kk, 6xkk (R131) -/
  | loadByte (x : Reg) (kk : Byte)
  /-- ADD Vx, kk, 7xkk (R132) -/
  | addByte (x : Reg) (kk : Byte)
  /-- LD Vx, Vy, 8xy0 (R133) -/
  | loadReg (x y : Reg)
  /-- OR Vx, Vy, 8xy1 (R134) -/
  | or (x y : Reg)
  /-- AND Vx, Vy, 8xy2 (R135) -/
  | and (x y : Reg)
  /-- XOR Vx, Vy, 8xy3 (R136) -/
  | xor (x y : Reg)
  /-- ADD Vx, Vy, 8xy4 (R137) -/
  | addReg (x y : Reg)
  /-- SUB Vx, Vy, 8xy5 (R138) -/
  | subReg (x y : Reg)
  /-- SHR Vx, Vy, 8xy6 (R142) -/
  | shiftRight (x y : Reg)
  /-- SUBN Vx, Vy, 8xy7 (R139) -/
  | subNReg (x y : Reg)
  /-- SHL Vx, Vy, 8xyE (R144) -/
  | shiftLeft (x y : Reg)
  /-- SNE Vx, Vy, 9xy0 (R108) -/
  | skipIfNotEqualReg (x y : Reg)
  /-- LD I, nnn, Annn (R170) -/
  | loadIndex (nnn : Addr12)
  /-- JP V0, nnn, Bnnn (R113) -/
  | jumpV0 (nnn : Addr12)
  /-- RND Vx, kk, Cxkk (R146) -/
  | random (x : Reg) (kk : Byte)
  /-- DRW Vx, Vy, n, Dxyn (R196) -/
  | draw (x y : Reg) (n : Rows)
  /-- SKP Vx, Ex9E (R210) -/
  | skipIfKeyDown (x : Reg)
  /-- SKNP Vx, ExA1 (R211) -/
  | skipIfKeyUp (x : Reg)
  /-- LD Vx, DT, Fx07 (R212) -/
  | loadDelay (x : Reg)
  /-- LD Vx, K, Fx0A (R213) -/
  | waitKey (x : Reg)
  /-- LD DT, Vx, Fx15 (R214) -/
  | setDelay (x : Reg)
  /-- LD ST, Vx, Fx18 (R215) -/
  | setSound (x : Reg)
  /-- ADD I, Vx, Fx1E (R171) -/
  | addIndex (x : Reg)
  /-- LD F, Vx, Fx29 (R172) -/
  | loadFont (x : Reg)
  /-- LD B, Vx, Fx33 (R173) -/
  | storeBCD (x : Reg)
  /-- LD [I], Vx, Fx55 (R174) -/
  | storeRegs (x : Reg)
  /-- LD Vx, [I], Fx65 (R175) -/
  | loadRegs (x : Reg)
  /-- NoOp (R114): a word no row matches. It carries the word, since R73 keeps every field of it (log entry 13). -/
  | noOp (w : Word)
deriving DecidableEq, Repr

end Sys2Proof
end

