-- ==== Sys2Proof/WellFormed.lean ====
section
/-! DEFINITION. Which terms of `Instr` are instructions: those some word decodes to (spec/30_encoding.md R75, R78, R79). -/

namespace Sys2Proof

/-- The sub-opcodes of the `8xyN` family that name an instruction (R76). -/
def aluSubOpcodes : List Nat := [0x0, 0x1, 0x2, 0x3, 0x4, 0x5, 0x6, 0x7, 0xE]

/-- The sub-opcodes of the `ExNN` family that name an instruction (R76). -/
def keySubOpcodes : List Nat := [0x9E, 0xA1]

/-- The sub-opcodes of the `FxNN` family that name an instruction (R76). -/
def miscSubOpcodes : List Nat := [0x07, 0x0A, 0x15, 0x18, 0x1E, 0x29, 0x33, 0x55, 0x65]

/-- The words no row of the opcode map matches, as R78 lists them. -/
def unmatched (w : Word) : Bool :=
  let op := w.toNat / 4096
  let n := w.toNat % 16
  let kk := w.toNat % 256
  (op == 0x5 && n != 0) || (op == 0x8 && !aluSubOpcodes.contains n) || (op == 0x9 && n != 0) ||
    (op == 0xE && !keySubOpcodes.contains kk) || (op == 0xF && !miscSubOpcodes.contains kk)

/-- A term is well formed when some word decodes to it: SYS 0x0E0 and SYS 0x0EE are not, since those two words are
CLS and RET (R75), and a NoOp carries an unmatched word (R78). Every other field fits by its type (R82). -/
def Instr.wellFormed : Instr → Bool
  | .sys nnn => nnn != 0x0E0 && nnn != 0x0EE
  | .clearScreen => true
  | .ret => true
  | .jump _ => true
  | .callSubroutine _ => true
  | .skipIfEqualByte _ _ => true
  | .skipIfNotEqualByte _ _ => true
  | .skipIfEqualReg _ _ => true
  | .loadByte _ _ => true
  | .addByte _ _ => true
  | .loadReg _ _ => true
  | .or _ _ => true
  | .and _ _ => true
  | .xor _ _ => true
  | .addReg _ _ => true
  | .subReg _ _ => true
  | .shiftRight _ _ => true
  | .subNReg _ _ => true
  | .shiftLeft _ _ => true
  | .skipIfNotEqualReg _ _ => true
  | .loadIndex _ => true
  | .jumpV0 _ => true
  | .random _ _ => true
  | .draw _ _ _ => true
  | .skipIfKeyDown _ => true
  | .skipIfKeyUp _ => true
  | .loadDelay _ => true
  | .waitKey _ => true
  | .setDelay _ => true
  | .setSound _ => true
  | .addIndex _ => true
  | .loadFont _ => true
  | .storeBCD _ => true
  | .storeRegs _ => true
  | .loadRegs _ => true
  | .noOp w => unmatched w

end Sys2Proof
end

