-- ==== Sys2Proof/Decode.lean ====
section
/-! DEFINITION. The decoder of spec/30_encoding.md R75, total on words and on byte lists, and the encoder of R82. -/

namespace Sys2Proof

/-! ## The fields of a word (R71) -/

/-- `w[lo + len - 1 : lo]` as a bit vector (R14). -/
def bits (w : Word) (lo len : Nat) : BitVec len := w.extractLsb' lo len

/-- op = w[15:12] -/
def fieldOp (w : Word) : Nat := (bits w 12 4).toNat
/-- x = w[11:8] -/
def fieldX (w : Word) : Reg := (bits w 8 4).toFin
/-- y = w[7:4] -/
def fieldY (w : Word) : Reg := (bits w 4 4).toFin
/-- n = w[3:0] -/
def fieldN (w : Word) : Rows := (bits w 0 4).toFin
/-- kk = w[7:0] -/
def fieldKK (w : Word) : Byte := bits w 0 8
/-- nnn = w[11:0] -/
def fieldNNN (w : Word) : Addr12 := bits w 0 12

/-! ## Decoding -/

/-- The `8xyN` family (R75). -/
def decodeAlu (w : Word) : Instr :=
  match (fieldN w).val with
  | 0x0 => .loadReg (fieldX w) (fieldY w)
  | 0x1 => .or (fieldX w) (fieldY w)
  | 0x2 => .and (fieldX w) (fieldY w)
  | 0x3 => .xor (fieldX w) (fieldY w)
  | 0x4 => .addReg (fieldX w) (fieldY w)
  | 0x5 => .subReg (fieldX w) (fieldY w)
  | 0x6 => .shiftRight (fieldX w) (fieldY w)
  | 0x7 => .subNReg (fieldX w) (fieldY w)
  | 0xE => .shiftLeft (fieldX w) (fieldY w)
  | _ => .noOp w

/-- The `ExNN` family (R75). -/
def decodeKey (w : Word) : Instr :=
  match (fieldKK w).toNat with
  | 0x9E => .skipIfKeyDown (fieldX w)
  | 0xA1 => .skipIfKeyUp (fieldX w)
  | _ => .noOp w

/-- The `FxNN` family (R75). -/
def decodeMisc (w : Word) : Instr :=
  match (fieldKK w).toNat with
  | 0x07 => .loadDelay (fieldX w)
  | 0x0A => .waitKey (fieldX w)
  | 0x15 => .setDelay (fieldX w)
  | 0x18 => .setSound (fieldX w)
  | 0x1E => .addIndex (fieldX w)
  | 0x29 => .loadFont (fieldX w)
  | 0x33 => .storeBCD (fieldX w)
  | 0x55 => .storeRegs (fieldX w)
  | 0x65 => .loadRegs (fieldX w)
  | _ => .noOp w

/-- The major nibble selects the row or the family (R75); the two full-word rows of the 0 space come first in `decode`. -/
def decodeMajor (w : Word) : Instr :=
  match fieldOp w with
  | 0x0 => .sys (fieldNNN w)
  | 0x1 => .jump (fieldNNN w)
  | 0x2 => .callSubroutine (fieldNNN w)
  | 0x3 => .skipIfEqualByte (fieldX w) (fieldKK w)
  | 0x4 => .skipIfNotEqualByte (fieldX w) (fieldKK w)
  | 0x5 => if (fieldN w).val = 0 then .skipIfEqualReg (fieldX w) (fieldY w) else .noOp w
  | 0x6 => .loadByte (fieldX w) (fieldKK w)
  | 0x7 => .addByte (fieldX w) (fieldKK w)
  | 0x8 => decodeAlu w
  | 0x9 => if (fieldN w).val = 0 then .skipIfNotEqualReg (fieldX w) (fieldY w) else .noOp w
  | 0xA => .loadIndex (fieldNNN w)
  | 0xB => .jumpV0 (fieldNNN w)
  | 0xC => .random (fieldX w) (fieldKK w)
  | 0xD => .draw (fieldX w) (fieldY w) (fieldN w)
  | 0xE => decodeKey w
  | _ => decodeMisc w

/-- The decode function of R73 and R75: the most specific pattern first, and never a failure. -/
def decode (w : Word) : Instr :=
  if w = 0x00E0 then .clearScreen
  else if w = 0x00EE then .ret
  else decodeMajor w

/-- Why a list of bytes holds no instruction. -/
inductive DecodeReject where
  /-- the list ends before the word's high byte -/
  | noBytes
  /-- the list ends before the word's low byte -/
  | noLowByte
deriving DecidableEq, Repr

/-- Decode the first instruction of a list of bytes, the high byte first (R55, R70). Only a list shorter than one
word is rejected: every word decodes (R73). -/
def decodeBytes : List Byte → Except DecodeReject (Instr × List Byte)
  | [] => .error .noBytes
  | [_] => .error .noLowByte
  | hi :: lo :: rest => .ok (decode (hi ++ lo), rest)

/-! ## Encoding (R82): the row's fixed digits, then each operand in its field -/

/-- A word with the digit `op` and an address in w[11:0]. -/
def wordNNN (op : Nat) (nnn : Addr12) : Word := BitVec.ofNat 16 (op * 4096 + nnn.toNat)

/-- A word with the digit `op`, a register in w[11:8] and a byte in w[7:0]. -/
def wordXKK (op : Nat) (x : Reg) (kk : Byte) : Word := BitVec.ofNat 16 (op * 4096 + x.val * 256 + kk.toNat)

/-- A word with the digits `op` and `n`, and registers in w[11:8] and w[7:4]. -/
def wordXYN (op : Nat) (x y : Reg) (n : Nat) : Word := BitVec.ofNat 16 (op * 4096 + x.val * 256 + y.val * 16 + n)

/-- The word of an instruction (R76, R82). -/
def encode : Instr → Word
  | .sys nnn => wordNNN 0x0 nnn
  | .clearScreen => 0x00E0
  | .ret => 0x00EE
  | .jump nnn => wordNNN 0x1 nnn
  | .callSubroutine nnn => wordNNN 0x2 nnn
  | .skipIfEqualByte x kk => wordXKK 0x3 x kk
  | .skipIfNotEqualByte x kk => wordXKK 0x4 x kk
  | .skipIfEqualReg x y => wordXYN 0x5 x y 0x0
  | .loadByte x kk => wordXKK 0x6 x kk
  | .addByte x kk => wordXKK 0x7 x kk
  | .loadReg x y => wordXYN 0x8 x y 0x0
  | .or x y => wordXYN 0x8 x y 0x1
  | .and x y => wordXYN 0x8 x y 0x2
  | .xor x y => wordXYN 0x8 x y 0x3
  | .addReg x y => wordXYN 0x8 x y 0x4
  | .subReg x y => wordXYN 0x8 x y 0x5
  | .shiftRight x y => wordXYN 0x8 x y 0x6
  | .subNReg x y => wordXYN 0x8 x y 0x7
  | .shiftLeft x y => wordXYN 0x8 x y 0xE
  | .skipIfNotEqualReg x y => wordXYN 0x9 x y 0x0
  | .loadIndex nnn => wordNNN 0xA nnn
  | .jumpV0 nnn => wordNNN 0xB nnn
  | .random x kk => wordXKK 0xC x kk
  | .draw x y n => wordXYN 0xD x y n.val
  | .skipIfKeyDown x => wordXKK 0xE x 0x9E
  | .skipIfKeyUp x => wordXKK 0xE x 0xA1
  | .loadDelay x => wordXKK 0xF x 0x07
  | .waitKey x => wordXKK 0xF x 0x0A
  | .setDelay x => wordXKK 0xF x 0x15
  | .setSound x => wordXKK 0xF x 0x18
  | .addIndex x => wordXKK 0xF x 0x1E
  | .loadFont x => wordXKK 0xF x 0x29
  | .storeBCD x => wordXKK 0xF x 0x33
  | .storeRegs x => wordXKK 0xF x 0x55
  | .loadRegs x => wordXKK 0xF x 0x65
  | .noOp w => w

/-- A word as the two bytes memory holds, the high byte at the lower address (R55). -/
def wordBytes (w : Word) : List Byte := [bits w 8 8, bits w 0 8]

/-- The bytes of an instruction. -/
def encodeBytes (i : Instr) : List Byte := wordBytes (encode i)

/-! ## The host's table words -/

/-- The word the host numbers `w` with `nbits` bits; every bit above `nbits` is 0. -/
def tableWord (nbits w : Nat) : Word := BitVec.ofNat 16 (w % 2 ^ nbits)

/-- What the decoder reads from the bytes of a table word. -/
def decodeTableWord (nbits w : Nat) : Option Instr :=
  match decodeBytes (wordBytes (tableWord nbits w)) with
  | .ok (i, _) => some i
  | .error _ => none

/-! ## The conventional assembler text (R81; the spec marks it as general knowledge) -/

/-- One hexadecimal digit. -/
def hexDigit (d : Nat) : String := ["0", "1", "2", "3", "4", "5", "6", "7", "8", "9", "A", "B", "C", "D", "E", "F"].getD (d % 16) "0"

/-- `Vx`. -/
def asmReg (x : Reg) : String := "V" ++ hexDigit x.val

/-- A byte immediate, `0x` and two digits. -/
def asmByte (kk : Byte) : String := "0x" ++ hexDigit (kk.toNat / 16) ++ hexDigit kk.toNat

/-- An address, `0x` and three digits. -/
def asmAddr (nnn : Addr12) : String := "0x" ++ hexDigit (nnn.toNat / 256) ++ hexDigit (nnn.toNat / 16) ++ hexDigit nnn.toNat

/-- The assembler line of an instruction (R76, R81). A NoOp has none, so its text is empty. -/
def Instr.asm : Instr → String
  | .sys nnn => "SYS " ++ asmAddr nnn
  | .clearScreen => "CLS"
  | .ret => "RET"
  | .jump nnn => "JP " ++ asmAddr nnn
  | .callSubroutine nnn => "CALL " ++ asmAddr nnn
  | .skipIfEqualByte x kk => "SE " ++ asmReg x ++ ", " ++ asmByte kk
  | .skipIfNotEqualByte x kk => "SNE " ++ asmReg x ++ ", " ++ asmByte kk
  | .skipIfEqualReg x y => "SE " ++ asmReg x ++ ", " ++ asmReg y
  | .loadByte x kk => "LD " ++ asmReg x ++ ", " ++ asmByte kk
  | .addByte x kk => "ADD " ++ asmReg x ++ ", " ++ asmByte kk
  | .loadReg x y => "LD " ++ asmReg x ++ ", " ++ asmReg y
  | .or x y => "OR " ++ asmReg x ++ ", " ++ asmReg y
  | .and x y => "AND " ++ asmReg x ++ ", " ++ asmReg y
  | .xor x y => "XOR " ++ asmReg x ++ ", " ++ asmReg y
  | .addReg x y => "ADD " ++ asmReg x ++ ", " ++ asmReg y
  | .subReg x y => "SUB " ++ asmReg x ++ ", " ++ asmReg y
  | .shiftRight x y => "SHR " ++ asmReg x ++ ", " ++ asmReg y
  | .subNReg x y => "SUBN " ++ asmReg x ++ ", " ++ asmReg y
  | .shiftLeft x y => "SHL " ++ asmReg x ++ ", " ++ asmReg y
  | .skipIfNotEqualReg x y => "SNE " ++ asmReg x ++ ", " ++ asmReg y
  | .loadIndex nnn => "LD I, " ++ asmAddr nnn
  | .jumpV0 nnn => "JP V0, " ++ asmAddr nnn
  | .random x kk => "RND " ++ asmReg x ++ ", " ++ asmByte kk
  | .draw x y n => "DRW " ++ asmReg x ++ ", " ++ asmReg y ++ ", " ++ toString n.val
  | .skipIfKeyDown x => "SKP " ++ asmReg x
  | .skipIfKeyUp x => "SKNP " ++ asmReg x
  | .loadDelay x => "LD " ++ asmReg x ++ ", DT"
  | .waitKey x => "LD " ++ asmReg x ++ ", K"
  | .setDelay x => "LD DT, " ++ asmReg x
  | .setSound x => "LD ST, " ++ asmReg x
  | .addIndex x => "ADD I, " ++ asmReg x
  | .loadFont x => "LD F, " ++ asmReg x
  | .storeBCD x => "LD B, " ++ asmReg x
  | .storeRegs x => "LD [I], " ++ asmReg x
  | .loadRegs x => "LD " ++ asmReg x ++ ", [I]"
  | .noOp _ => ""

end Sys2Proof
end

