-- ==== Sys2Proof/Config.lean ====
section
/-! DEFINITION. What is fixed for a run but not by the spec (spec/00_scope.md R9 to R12), and the free values (R13).
The parameters travel in `Machine.State.cfg`, which no step changes: log entry 1. -/

namespace Sys2Proof

/-- The two values of the parameter `SHIFT_SOURCE` (R12): the register SHR and SHL read. -/
inductive ShiftSource where
  /-- the historical behaviour: read V[y] -/
  | vy
  /-- the modern behaviour: read V[x] -/
  | vx
deriving DecidableEq, Repr, Inhabited

/-- The parameter `FONT` (R11): 80 bytes, 5 for each hexadecimal digit. -/
abbrev Font := Vector Byte 80

/-- The implementation parameters (R9, R11, R12). -/
structure Config where
  /-- `CYCLES_PER_TICK`: completed steps between two timer ticks, at least 1 (R9, D44). -/
  cyclesPerTick : Nat
  /-- `SHIFT_SOURCE` (R12, D10): a chosen value, or `none` where it is left OPEN, as the spec leaves it. -/
  shiftSource : Option ShiftSource
  /-- `FONT`: the bytes at 0x000 to 0x04F after reset (R11, D15). -/
  font : Font
deriving DecidableEq, Repr

/-- FREE VALUE (log entry 2). The register SHR and SHL read where `Config.shiftSource` is left open: R12 gives no
default, so nothing is known of it. -/
opaque Config.openShiftSource : ShiftSource

/-- FREE VALUE (log entry 3). The random byte of the `k`-th completed step where the host has supplied none (R13):
nothing is known of it. -/
opaque Config.rndByte : Nat → Byte

/-- `CLOCK_HZ` (R10): used only to derive the default ratio. -/
def Config.clockHz : Nat := 540

/-- The rate of the timers in real time (R9, R299). -/
def Config.tickHz : Nat := 60

/-- The standard font, the default of `FONT` (R293; the spec marks the bytes as general knowledge). -/
def Config.standardFont : Font :=
  #v[0xF0, 0x90, 0x90, 0x90, 0xF0,  0x20, 0x60, 0x20, 0x20, 0x70,
     0xF0, 0x10, 0xF0, 0x80, 0xF0,  0xF0, 0x10, 0xF0, 0x10, 0xF0,
     0x90, 0x90, 0xF0, 0x10, 0x10,  0xF0, 0x80, 0xF0, 0x10, 0xF0,
     0xF0, 0x80, 0xF0, 0x90, 0xF0,  0xF0, 0x10, 0x20, 0x40, 0x40,
     0xF0, 0x90, 0xF0, 0x90, 0xF0,  0xF0, 0x90, 0xF0, 0x10, 0xF0,
     0xF0, 0x90, 0xF0, 0x90, 0x90,  0xE0, 0x90, 0xE0, 0x90, 0xE0,
     0xF0, 0x80, 0x80, 0x80, 0xF0,  0xE0, 0x90, 0x90, 0x90, 0xE0,
     0xF0, 0x80, 0xF0, 0x80, 0xF0,  0xF0, 0x80, 0xF0, 0x80, 0x80]

/-- The parameters' defaults (R9, R12, R293): 540 / 60 = 9 steps a tick, `SHIFT_SOURCE` open, the standard font. -/
def Config.standard : Config :=
  { cyclesPerTick := Config.clockHz / Config.tickHz, shiftSource := none, font := Config.standardFont }

end Sys2Proof
end

