-- ==== Sys2Proof/Machine/State.lean ====
section
/-! DEFINITION. The machine state: the tuple of spec/10_state.md R20, field by field, and its reset (R38). -/

namespace Sys2Proof.Machine

/-- The fault causes of spec/60_exceptions.md R260. The spec gives the entry of every one of them (R237, R264), so no
step of this model ANSWERS a fault: the cause goes into the FAULT record of a next state (log entry 7). Safe: a claim
about a run asks for `fault = none` at its end. -/
inductive Fault where
  /-- FETCH_OUT_OF_RANGE, code 1: raised by the fetch of any step with pc > 0x0FFE (R232). Safe: recorded in FAULT. -/
  | fetchOutOfRange
  /-- STACK_OVERFLOW, code 2: raised by CALL with SP = 16 (R102). Safe: recorded in FAULT. -/
  | stackOverflow
  /-- STACK_UNDERFLOW, code 3: raised by RET with SP = 0 (R101). Safe: recorded in FAULT. -/
  | stackUnderflow
  /-- MEMORY_OUT_OF_RANGE, code 4: raised by DRW, LD B,Vx, LD [I],Vx and LD Vx,[I] for an address above 0x0FFF (R54).
  Safe: recorded in FAULT. -/
  | memoryOutOfRange
  /-- KEY_INDEX_OUT_OF_RANGE, code 5: raised by SKP and SKNP with V[x] > 0x0F (R210, R211). Safe: recorded in FAULT. -/
  | keyIndexOutOfRange
deriving DecidableEq, Repr

/-- The host's name for an instruction that has no meaning. -/
inductive Refusal where
  /-- Raised by an arm of `exec` that has no meaning yet: no arm is left so. Safe: the machine stops. -/
  | notModelled (mnemonic : String)
deriving DecidableEq, Repr

/-- The fault record of R35: the cause, the pc of the step that faulted, and the word fetched (`none` when the fetch
itself faulted). -/
structure FaultRecord where
  cause : Fault
  pc : Word
  word : Option Word
deriving DecidableEq, Repr

/-- `mem` (R50) as the list of the cells that differ from their reset value (log entry 5). `Machine/Ops.lean` reads and
writes it and says which lists are in the one canonical form. -/
abbrev Memory := List Host.Cell

/-- `D` (R34) as 32 packed rows of 64 pixels: bit x of row y is D[x][y] (log entry 6). -/
abbrev Display := Vector (BitVec 64) 32

/-- The machine state (R20), and below it the model's own fields: the parameters, fixed for a run (R21, log entry 1),
and the step's random input (R13, log entry 3). -/
structure State where
  /-- `mem`: what differs from the reset contents (R50) -/
  mem : Memory
  /-- `V[0]` to `V[15]` (R22, R23) -/
  v : Vector Byte 16
  /-- `I` (R24) -/
  i : Word
  /-- `pc`: the address of the instruction being executed (R25, R26) -/
  pc : Word
  /-- `S[0]` to `S[15]` (R27) -/
  stack : Vector Word 16
  /-- `SP`: the number of slots in use, 0 to 16 (R28) -/
  sp : Fin 17
  /-- `DT` (R29) -/
  dt : Byte
  /-- `ST` (R30) -/
  st : Byte
  /-- `KEY[0]` to `KEY[15]`, true when down (R32) -/
  key : Vector Bool 16
  /-- `LK`: the latched key, or NONE (R33) -/
  lk : Option Key
  /-- `ACC`: completed steps since the last tick (R31) -/
  acc : Nat
  /-- `D` (R34) -/
  display : Display
  /-- `FAULT` (R35) -/
  fault : Option FaultRecord
  /-- the parameters (R9, R11, R12): the model's own field, changed by no step -/
  cfg : Config
  /-- the random bytes the host has supplied for coming steps (R13): the model's own field -/
  rndQueue : List Byte
  /-- the number of completed steps, the index of the next free random byte (R13): the model's own field -/
  draws : Nat
deriving DecidableEq, Repr

/-- The state after reset under given parameters (R38, R290). Memory lists nothing: every cell reads as its reset
value, the font or zero. -/
def State.resetWith (cfg : Config) : State :=
  { mem := []
    v := Vector.replicate 16 0
    i := 0
    pc := programStart
    stack := Vector.replicate 16 0
    sp := 0
    dt := 0
    st := 0
    key := Vector.replicate 16 false
    lk := none
    acc := 0
    display := Vector.replicate 32 0
    fault := none
    cfg := cfg
    rndQueue := []
    draws := 0 }

/-- The machine right after reset, with the parameters' defaults (R9, R12, R293). -/
def State.reset : State := State.resetWith Config.standard

end Sys2Proof.Machine
end

