-- ==== Sys2Proof/Machine/Ops.lean ====
section
/-! DEFINITION. The named operations over memory, registers, stack, display and keys, and fault entry. -/

namespace Sys2Proof.Machine

/-! ## Memory (spec/20_memory.md) -/

/-- What an address reads as while nothing has changed it: the reset contents, FONT at 0x000 to 0x04F and zero above
(R38, R59). -/
def Memory.blank (font : Font) (a : Nat) : Byte := if h : a < 80 then font[a] else 0

/-- The byte at an address. -/
def Memory.read (font : Font) : Memory → Nat → Byte
  | [], a => Memory.blank font a
  | (b, u) :: m, a => if a = b then u else Memory.read font m a

/-- Write one byte, keeping the canonical form: the entry goes to its place in the order, and writing what the address
reads as when unlisted removes the entry. -/
def Memory.write (font : Font) : Memory → Nat → Byte → Memory
  | [], a, u => if u = Memory.blank font a then [] else [(a, u)]
  | (b, w) :: m, a, u =>
    if a < b then (if u = Memory.blank font a then (b, w) :: m else (a, u) :: (b, w) :: m)
    else if a = b then (if u = Memory.blank font a then m else (a, u) :: m)
    else (b, w) :: Memory.write font m a u

/-- The canonical form, above a lower bound for the addresses: addresses strictly rising and below 4096 (R50), and no
entry equal to what the unlisted address reads as. -/
def Memory.wfFrom (font : Font) : Nat → Memory → Bool
  | _, [] => true
  | lo, (a, u) :: m => decide (lo ≤ a) && decide (a < memSize) && decide (u ≠ Memory.blank font a) && Memory.wfFrom font (a + 1) m

/-- The canonical form of memory. -/
def Memory.wf (font : Font) (m : Memory) : Bool := Memory.wfFrom font 0 m

/-- The byte of `mem` at an address. -/
def State.byteAt (s : State) (a : Nat) : Byte := Memory.read s.cfg.font s.mem a

/-- `mem[a] <- u`. -/
def State.setByte (s : State) (a : Nat) (u : Byte) : State := { s with mem := Memory.write s.cfg.font s.mem a u }

/-- `MemRead(addr, 1)` (R52). -/
def memRead (s : State) (a : Nat) : Except Fault Byte :=
  if 0x0FFF < a then .error .memoryOutOfRange else .ok (s.byteAt a)

/-- `MemWrite(addr, 1, v)` (R53). -/
def memWrite (s : State) (a : Nat) (u : Byte) : Except Fault State :=
  if 0x0FFF < a then .error .memoryOutOfRange else .ok (s.setByte a u)

/-- The block `a` to `a + n - 1` leaves memory (R54, R176): tested on its last address; an empty block never does (R199). -/
def blockOutOfRange (a n : Nat) : Bool := decide (0 < n) && decide (0x0FFF < a + n - 1)

/-- `n` bytes from `a` upward. -/
def State.bytesFrom (s : State) (a : Nat) : Nat → List Byte
  | 0 => []
  | n + 1 => s.byteAt a :: State.bytesFrom s (a + 1) n

/-- Bytes written one after another from `a` upward. -/
def State.setBytesFrom (s : State) (a : Nat) : List Byte → State
  | [] => s
  | u :: us => State.setBytesFrom (s.setByte a u) (a + 1) us

/-- Read a block, or fault without reading (R54, R57). -/
def readBlock (s : State) (a n : Nat) : Except Fault (List Byte) :=
  if blockOutOfRange a n then .error .memoryOutOfRange else .ok (s.bytesFrom a n)

/-- Write a block, or fault with nothing written (R54, R57). -/
def writeBlock (s : State) (a : Nat) (us : List Byte) : Except Fault State :=
  if blockOutOfRange a us.length then .error .memoryOutOfRange else .ok (s.setBytesFrom a us)

/-! ## Registers and the pc (spec/10_state.md) -/

/-- `V[x]` (R15, R22). -/
def State.reg (s : State) (x : Reg) : Byte := s.v[x]

/-- `V[x] <- u` (R15, R22). -/
def State.setReg (s : State) (x : Reg) (u : Byte) : State := { s with v := s.v.set x u }

/-- `V[0]` to `V[x]`, in order (R174). -/
def State.regsUpTo (s : State) (x : Reg) : List Byte := s.v.toList.take (x.val + 1)

/-- `V[i] <- us[i]` for every position of `us`; the registers past its end keep their values (R175). -/
def State.setRegsFrom0 (s : State) (us : List Byte) : State :=
  { s with v := Vector.ofFn fun k => us.getD k.val s.v[k] }

/-- `I <- a`. -/
def State.setIndex (s : State) (a : Word) : State := { s with i := a }

/-- `pc <- a` (R15). -/
def State.setPc (s : State) (a : Word) : State := { s with pc := a }

/-- The standard advance `pc <- pc + 2` (R80). -/
def State.advance (s : State) : State := s.setPc (s.pc + 2)

/-- `pc <- pc + 4` when the condition holds and `pc + 2` otherwise (R104). -/
def State.skipIf (s : State) (c : Bool) : State := s.setPc (if c then s.pc + 4 else s.pc + 2)

/-- `DT <- u` (R29). -/
def State.setDT (s : State) (u : Byte) : State := { s with dt := u }

/-- `ST <- u` (R30). -/
def State.setST (s : State) (u : Byte) : State := { s with st := u }

/-- `LK <- k` (R33). -/
def State.setLK (s : State) (k : Option Key) : State := { s with lk := k }

/-! ## The return stack (R27, R28) -/

/-- `S[SP] <- a; SP <- SP + 1`, or STACK_OVERFLOW with SP = 16 (R102). -/
def push (s : State) (a : Word) : Except Fault State :=
  if h : s.sp.val < 16 then .ok { s with stack := s.stack.set s.sp.val a, sp := ⟨s.sp.val + 1, by omega⟩ }
  else .error .stackOverflow

/-- `SP <- SP - 1`, and the value of the slot SP then names, or STACK_UNDERFLOW with SP = 0 (R101). The slot keeps its value. -/
def pop (s : State) : Except Fault (Word × State) :=
  if h : s.sp.val = 0 then .error .stackUnderflow
  else .ok (s.stack[s.sp.val - 1]'(by omega), { s with sp := ⟨s.sp.val - 1, by omega⟩ })

/-! ## The display buffer (spec/43_display.md) -/

/-- `D[x][y]` (R34). -/
def Display.pixel (d : Display) (x : Fin 64) (y : Fin 32) : Bool := d[y].getLsbD x.val

/-- `clear()`: every pixel to 0 (R191). -/
def Display.clear : Display := Vector.replicate 32 0

/-- The column a coordinate wraps to (R192). -/
def wrapX (px : Nat) : Fin 64 := Fin.ofNat 64 px

/-- The row a coordinate wraps to (R192). -/
def wrapY (py : Nat) : Fin 32 := Fin.ofNat 32 py

/-- `toggle_pixel(px, py)`: flip the pixel at the wrapped coordinates and report whether it was lit before (R192). -/
def Display.togglePixel (d : Display) (px py : Nat) : Display × Bool :=
  (d.set (wrapY py) (d[wrapY py] ^^^ BitVec.twoPow 64 (wrapX px).val), Display.pixel d (wrapX px) (wrapY py))

/-- Toggle a list of coordinates in order, and report whether any toggle turned a lit pixel off (R196). -/
def Display.toggleAll (d : Display) : List (Nat × Nat) → Display × Bool
  | [] => (d, false)
  | p :: ps =>
    let one := Display.togglePixel d p.1 p.2
    let rest := Display.toggleAll one.1 ps
    (rest.1, one.2 || rest.2)

/-- `D <- d`. -/
def State.setDisplay (s : State) (d : Display) : State := { s with display := d }

/-! ## Fault entry (spec/60_exceptions.md R262, R264; spec/45_cycle_driver.md R237)

There is no return from a fault (R265): only reset clears FAULT (`State.resetAction` in Machine/HostActions.lean). -/

/-- The cause codes of R260. -/
def Fault.code : Fault → Nat
  | .fetchOutOfRange => 1
  | .stackOverflow => 2
  | .stackUnderflow => 3
  | .memoryOutOfRange => 4
  | .keyIndexOutOfRange => 5

/-- Taking a fault: `FAULT <- (cause, pc, word)` and nothing else; the state it is applied to is that of the start of
the step, so every write of the step is discarded (R237, R264). -/
def takeFault (cause : Fault) (word : Option Word) (s : State) : State :=
  { s with fault := some { cause := cause, pc := s.pc, word := word } }

/-- The end of an execute that may raise: its result, or the fault taken in the state before it (R16, R237). -/
def commit (i : Instr) (s : State) : Except Fault State → Host.Outcome State Fault Refusal
  | .ok t => .next t
  | .error c => .next (takeFault c (some (encode i)) s)

end Sys2Proof.Machine
end

