-- ==== Sys2Proof/Machine/Flags.lean ====
section
/-! DEFINITION. The flag computations, all into VF: spec/10_state.md R23, spec/41_alu.md R130 and R137 to R144. -/

namespace Sys2Proof.Machine

/-- A flag as the byte VF receives: 1 or 0. -/
def flagByte (c : Bool) : Byte := if c then 1 else 0

/-- Carry of an 8-bit addition: the 9-bit sum exceeds 255 (R137). -/
def carry (a b : Byte) : Bool := decide (255 < a.toNat + b.toNat)

/-- The "no borrow" flag of `a - b`: a > b STRICTLY, so equal operands give 0 (R138, R140). -/
def noBorrow (a b : Byte) : Bool := decide (b.toNat < a.toNat)

/-- The bit SHR shifts out: bit 0 of the source (R142). -/
def shiftedOutRight (src : Byte) : Bool := src.getLsbD 0

/-- The bit SHL shifts out: bit 7 of the source (R144). -/
def shiftedOutLeft (src : Byte) : Bool := src.getLsbD 7

/-- `VF <- flag`. -/
def State.setFlag (s : State) (c : Bool) : State := s.setReg vf (flagByte c)

/-- The result into V[x] first and the flag into VF last, so that the flag wins when x = 15 (R130). -/
def State.setResultAndFlag (s : State) (x : Reg) (r : Byte) (c : Bool) : State := (s.setReg x r).setFlag c

end Sys2Proof.Machine
end

