-- ==== Sys2Proof/Machine/Operands.lean ====
section
/-! DEFINITION. The operand forms: immediates, the shift source, the random byte, the key index, decimal digits, the
sprite, and the address a block instruction stores to. -/

namespace Sys2Proof.Machine

/-- `zext_16(nnn)` (R72). -/
def addr (nnn : Addr12) : Word := nnn.setWidth 16

/-- `zext_16` of a byte (R14). -/
def zext16 (b : Byte) : Word := b.setWidth 16

/-- The target of JP V0, nnn: a 16-bit sum, not masked to 12 bits (R113). -/
def jumpV0Target (nnn : Addr12) (s : State) : Word := addr nnn + zext16 (s.reg 0)

/-- `SHIFT_SOURCE` (R12): the chosen value, or the free one where it is left open (log entry 2). -/
def State.shiftSource (s : State) : ShiftSource := s.cfg.shiftSource.getD Config.openShiftSource

/-- `src <- (SHIFT_SOURCE = VY) ? V[y] : V[x]` (R141). -/
def shiftOperand (x y : Reg) (s : State) : Byte :=
  match s.shiftSource with
  | .vy => s.reg y
  | .vx => s.reg x

/-- The step's random byte `rnd` (R13, R146): the byte the host has supplied for this step, or the free one (log entry 3). -/
def State.rnd (s : State) : Byte := s.rndQueue.headD (Config.rndByte s.draws)

/-- The key a register value names, or KEY_INDEX_OUT_OF_RANGE above 0x0F (R210, R211). -/
def keyIndex (k : Byte) : Except Fault Key :=
  if h : k.toNat < 16 then .ok ⟨k.toNat, h⟩ else .error .keyIndexOutOfRange

/-- `KEY[k]` (R32). -/
def State.keyDown (s : State) (k : Key) : Bool := s.key[k]

/-- A key index as a register value (R213). -/
def keyByte (k : Key) : Byte := BitVec.ofNat 8 k.val

/-- The hundreds, tens and ones digit of a byte (R173). -/
def decimalDigits (v : Byte) : List Byte :=
  [BitVec.ofNat 8 (v.toNat / 100), BitVec.ofNat 8 (v.toNat / 10 % 10), BitVec.ofNat 8 (v.toNat % 10)]

/-- The address of the glyph of a digit: 5 bytes each from address 0, not masked above 0xF (R172). -/
def glyphAddr (v : Byte) : Word := 5 * zext16 v

/-- The columns of the set bits of one sprite row, bit 7 leftmost (R197). -/
def rowColumns (xs : Nat) (b : Byte) : List Nat :=
  ((List.range 8).filter fun c => b.getLsbD (7 - c)).map fun c => xs + c

/-- The coordinates of the set bits of a sprite whose top row is at `ys`, in the order of the two loops of R196. -/
def spritePoints (xs : Nat) : Nat → List Byte → List (Nat × Nat)
  | _, [] => []
  | ys, b :: bs => (rowColumns xs b).map (fun px => (px, ys)) ++ spritePoints xs (ys + 1) bs

end Sys2Proof.Machine
end

