-- ==== Sys2Proof/Machine/Alu.lean ====
section
/-! DEFINITION. Register loads, ALU and random: spec/41_alu.md. Operands are read from the state before any write (R130). -/

namespace Sys2Proof.Machine

/-- LD Vx, kk (R131). -/
def execLoadByte (x : Reg) (kk : Byte) (s : State) : Host.Outcome State Fault Refusal := .next (s.setReg x kk).advance

/-- ADD Vx, kk wraps and writes no flag (R132). -/
def execAddByte (x : Reg) (kk : Byte) (s : State) : Host.Outcome State Fault Refusal :=
  .next (s.setReg x (s.reg x + kk)).advance

/-- LD Vx, Vy (R133). -/
def execLoadReg (x y : Reg) (s : State) : Host.Outcome State Fault Refusal := .next (s.setReg x (s.reg y)).advance

/-- OR Vx, Vy leaves VF alone (R134). -/
def execOr (x y : Reg) (s : State) : Host.Outcome State Fault Refusal :=
  .next (s.setReg x (s.reg x ||| s.reg y)).advance

/-- AND Vx, Vy leaves VF alone (R135). -/
def execAnd (x y : Reg) (s : State) : Host.Outcome State Fault Refusal :=
  .next (s.setReg x (s.reg x &&& s.reg y)).advance

/-- XOR Vx, Vy leaves VF alone (R136). -/
def execXor (x y : Reg) (s : State) : Host.Outcome State Fault Refusal :=
  .next (s.setReg x (s.reg x ^^^ s.reg y)).advance

/-- ADD Vx, Vy: the sum modulo 256, VF the carry (R137). -/
def execAddReg (x y : Reg) (s : State) : Host.Outcome State Fault Refusal :=
  .next (s.setResultAndFlag x (s.reg x + s.reg y) (carry (s.reg x) (s.reg y))).advance

/-- SUB Vx, Vy: Vx - Vy modulo 256, VF = 1 iff Vx > Vy (R138). -/
def execSubReg (x y : Reg) (s : State) : Host.Outcome State Fault Refusal :=
  .next (s.setResultAndFlag x (s.reg x - s.reg y) (noBorrow (s.reg x) (s.reg y))).advance

/-- SUBN Vx, Vy: Vy - Vx modulo 256, VF = 1 iff Vy > Vx (R139). -/
def execSubNReg (x y : Reg) (s : State) : Host.Outcome State Fault Refusal :=
  .next (s.setResultAndFlag x (s.reg y - s.reg x) (noBorrow (s.reg y) (s.reg x))).advance

/-- SHR Vx, Vy: the source shifted right by one, VF its bit 0 (R142). -/
def execShiftRight (x y : Reg) (s : State) : Host.Outcome State Fault Refusal :=
  .next (s.setResultAndFlag x (shiftOperand x y s >>> 1) (shiftedOutRight (shiftOperand x y s))).advance

/-- SHL Vx, Vy: the source shifted left by one, VF its bit 7 (R144). -/
def execShiftLeft (x y : Reg) (s : State) : Host.Outcome State Fault Refusal :=
  .next (s.setResultAndFlag x (shiftOperand x y s <<< 1) (shiftedOutLeft (shiftOperand x y s))).advance

/-- RND Vx, kk: the step's random byte AND kk (R146). -/
def execRandom (x : Reg) (kk : Byte) (s : State) : Host.Outcome State Fault Refusal :=
  .next (s.setReg x (s.rnd &&& kk)).advance

end Sys2Proof.Machine
end

