-- ==== Sys2Proof/Machine/Flow.lean ====
section
/-! DEFINITION. Control flow: spec/40_flow.md. -/

namespace Sys2Proof.Machine

/-- SYS nnn only advances the pc (R100). -/
def execSys (_nnn : Addr12) (s : State) : Host.Outcome State Fault Refusal := .next s.advance

/-- NoOp only advances the pc, and is never a fault (R114). -/
def execNoOp (_w : Word) (s : State) : Host.Outcome State Fault Refusal := .next s.advance

/-- RET pops the address of the CALL and goes on 2 bytes past it (R101). -/
def execRet (s : State) : Host.Outcome State Fault Refusal :=
  commit .ret s (do
    let (a, t) ← pop s
    return t.setPc (a + 2))

/-- CALL nnn pushes its own address and jumps (R102). -/
def execCallSubroutine (nnn : Addr12) (s : State) : Host.Outcome State Fault Refusal :=
  commit (.callSubroutine nnn) s (do
    let t ← push s s.pc
    return t.setPc (addr nnn))

/-- JP nnn (R103). -/
def execJump (nnn : Addr12) (s : State) : Host.Outcome State Fault Refusal := .next (s.setPc (addr nnn))

/-- JP V0, nnn (R113). -/
def execJumpV0 (nnn : Addr12) (s : State) : Host.Outcome State Fault Refusal := .next (s.setPc (jumpV0Target nnn s))

/-- SE Vx, kk (R105). -/
def execSkipIfEqualByte (x : Reg) (kk : Byte) (s : State) : Host.Outcome State Fault Refusal :=
  .next (s.skipIf (s.reg x == kk))

/-- SNE Vx, kk (R106). -/
def execSkipIfNotEqualByte (x : Reg) (kk : Byte) (s : State) : Host.Outcome State Fault Refusal :=
  .next (s.skipIf (s.reg x != kk))

/-- SE Vx, Vy (R107). -/
def execSkipIfEqualReg (x y : Reg) (s : State) : Host.Outcome State Fault Refusal :=
  .next (s.skipIf (s.reg x == s.reg y))

/-- SNE Vx, Vy (R108). -/
def execSkipIfNotEqualReg (x y : Reg) (s : State) : Host.Outcome State Fault Refusal :=
  .next (s.skipIf (s.reg x != s.reg y))

end Sys2Proof.Machine
end

