-- ==== Sys2Proof/Machine/IndexMemory.lean ====
section
/-! DEFINITION. The index register and memory instructions: spec/42_index_memory.md. A block that leaves memory faults
as a whole, with nothing written (R54, R176). -/

namespace Sys2Proof.Machine

/-- LD I, nnn (R170). -/
def execLoadIndex (nnn : Addr12) (s : State) : Host.Outcome State Fault Refusal := .next (s.setIndex (addr nnn)).advance

/-- ADD I, Vx: a 16-bit sum, VF unchanged (R171). -/
def execAddIndex (x : Reg) (s : State) : Host.Outcome State Fault Refusal :=
  .next (s.setIndex (s.i + zext16 (s.reg x))).advance

/-- LD F, Vx (R172). -/
def execLoadFont (x : Reg) (s : State) : Host.Outcome State Fault Refusal :=
  .next (s.setIndex (glyphAddr (s.reg x))).advance

/-- LD B, Vx stores the three decimal digits of Vx at I, I + 1, I + 2 and leaves I alone (R173). -/
def execStoreBCD (x : Reg) (s : State) : Host.Outcome State Fault Refusal :=
  commit (.storeBCD x) s (do
    let t ← writeBlock s s.i.toNat (decimalDigits (s.reg x))
    return t.advance)

/-- LD [I], Vx stores V[0] to V[x] from I upward, and I moves past them (R174). -/
def execStoreRegs (x : Reg) (s : State) : Host.Outcome State Fault Refusal :=
  commit (.storeRegs x) s (do
    let t ← writeBlock s s.i.toNat (s.regsUpTo x)
    return (t.setIndex (s.i + BitVec.ofNat 16 (x.val + 1))).advance)

/-- LD Vx, [I] loads V[0] to V[x] from I upward, and I moves past them (R175). -/
def execLoadRegs (x : Reg) (s : State) : Host.Outcome State Fault Refusal :=
  commit (.loadRegs x) s (do
    let us ← readBlock s s.i.toNat (x.val + 1)
    return ((s.setRegsFrom0 us).setIndex (s.i + BitVec.ofNat 16 (x.val + 1))).advance)

end Sys2Proof.Machine
end

