-- ==== Sys2Proof/Machine/KeysTimers.lean ====
section
/-! DEFINITION. The key and timer instructions: spec/44_keys_timers.md. -/

namespace Sys2Proof.Machine

/-- SKP Vx skips when the key V[x] is down (R210). -/
def execSkipIfKeyDown (x : Reg) (s : State) : Host.Outcome State Fault Refusal :=
  commit (.skipIfKeyDown x) s (do
    let k ← keyIndex (s.reg x)
    return s.skipIf (s.keyDown k))

/-- SKNP Vx skips when the key V[x] is up (R211). -/
def execSkipIfKeyUp (x : Reg) (s : State) : Host.Outcome State Fault Refusal :=
  commit (.skipIfKeyUp x) s (do
    let k ← keyIndex (s.reg x)
    return s.skipIf (!s.keyDown k))

/-- LD Vx, DT (R212). -/
def execLoadDelay (x : Reg) (s : State) : Host.Outcome State Fault Refusal := .next (s.setReg x s.dt).advance

/-- LD Vx, K waits in place while no key is latched, and consumes a latched key (R213). -/
def execWaitKey (x : Reg) (s : State) : Host.Outcome State Fault Refusal :=
  match s.lk with
  | none => .next s
  | some k => .next ((s.setReg x (keyByte k)).setLK none).advance

/-- LD DT, Vx (R214). -/
def execSetDelay (x : Reg) (s : State) : Host.Outcome State Fault Refusal := .next (s.setDT (s.reg x)).advance

/-- LD ST, Vx (R215). -/
def execSetSound (x : Reg) (s : State) : Host.Outcome State Fault Refusal := .next (s.setST (s.reg x)).advance

end Sys2Proof.Machine
end

