-- ==== Sys2Proof/Machine/Screen.lean ====
section
/-! DEFINITION. The display instructions: spec/43_display.md. -/

namespace Sys2Proof.Machine

/-- CLS clears every pixel; VF is not written (R195). -/
def execClearScreen (s : State) : Host.Outcome State Fault Refusal := .next (s.setDisplay Display.clear).advance

/-- The display and collision after a sprite is drawn at column `xs`, row `ys` (R196). -/
def drawSprite (d : Display) (xs ys : Nat) (rows : List Byte) : Display × Bool :=
  Display.toggleAll d (spritePoints xs ys rows)

/-- DRW Vx, Vy, n toggles the set bits of the n bytes from I; VF is 1 iff a lit pixel was turned off. The coordinates
are read before VF is written (R196, R202). -/
def execDraw (x y : Reg) (n : Rows) (s : State) : Host.Outcome State Fault Refusal :=
  commit (.draw x y n) s (do
    let rows ← readBlock s s.i.toNat n.val
    let drawn := drawSprite s.display (s.reg x).toNat (s.reg y).toNat rows
    return ((s.setDisplay drawn.1).setFlag drawn.2).advance)

end Sys2Proof.Machine
end

