-- ==== Sys2Proof/Machine/Driver.lean ====
section
/-! DEFINITION. The parts of the cycle driver around the executor: fetch, the accumulator and the tick
(spec/45_cycle_driver.md R231, R232, R235, R236). -/

namespace Sys2Proof.Machine

/-- The last pc both bytes of a word can be fetched from (R232). -/
def fetchLimit : Nat := 0x0FFE

/-- The pc is beyond the fetch bound (R232). -/
def State.fetchOutOfRange (s : State) : Bool := decide (fetchLimit < s.pc.toNat)

/-- The word at pc, `mem[pc] ++ mem[pc + 1]` (R55, R231). -/
def State.fetchWord (s : State) : Word := s.byteAt s.pc.toNat ++ s.byteAt (s.pc.toNat + 1)

/-- One decrement of a timer, which stops at 0 (R236). -/
def countDown (t : Byte) : Byte := if t = 0 then 0 else t - 1

/-- One timer tick: both timers, independently (R236). -/
def State.tick (s : State) : State := { s with dt := countDown s.dt, st := countDown s.st }

/-- The accumulator after a completed step, and the tick when it reaches CYCLES_PER_TICK (R235, R236). -/
def State.countStep (s : State) : State :=
  if s.acc + 1 = s.cfg.cyclesPerTick then { s.tick with acc := 0 } else { s with acc := s.acc + 1 }

/-- The random input of the completed step is used up (R13; the model's own fields, log entry 3). -/
def State.dropRnd (s : State) : State := { s with rndQueue := s.rndQueue.tail, draws := s.draws + 1 }

/-- What the driver adds after an execute: a step that faulted does not count (R235, R237), every other one does. -/
def State.afterExecute (t : State) : State := if t.fault.isSome then t else t.countStep.dropRnd

/-- `afterExecute` on the outcome of an execute. -/
def finish : Host.Outcome State Fault Refusal → Host.Outcome State Fault Refusal
  | .next t => .next t.afterExecute
  | .fault r => .fault r
  | .refused r => .refused r

/-- A state that will fetch: FAULT cleared, and a pc beyond the fetch bound moved to the program start. -/
def State.readyToFetch (s : State) : State :=
  { s with fault := none, pc := if s.fetchOutOfRange then programStart else s.pc }

end Sys2Proof.Machine
end

