-- ==== Sys2Proof/Machine/Step.lean ====
section
/-! DEFINITION. The cycle driver's step (spec/45_cycle_driver.md R230), the step with its random byte supplied, and the
host's placing of an instruction where the next step fetches. -/

namespace Sys2Proof.Machine

/-- One step (R230): a halted core changes nothing (R238); a pc beyond the fetch bound takes the fetch fault (R232);
otherwise fetch, decode, execute, and count the completed step. -/
def step (s : State) : Host.Outcome State Fault Refusal :=
  if s.fault.isSome then .next s
  else if s.fetchOutOfRange then .next (takeFault .fetchOutOfRange none s)
  else finish (exec (decode s.fetchWord) s)

/-- `step(s, rnd)` of R230: the step whose random byte is `rnd`. What the host had supplied for later steps stays. -/
def stepWith (rnd : Byte) (s : State) : Host.Outcome State Fault Refusal :=
  match step { s with rndQueue := [rnd] } with
  | .next t => .next { t with rndQueue := s.rndQueue }
  | .fault r => .fault r
  | .refused r => .refused r

/-- `s` with a table word stored where the next step fetches, so that the next step runs it (log entry 8). -/
def State.withFetchWord (s : State) (nbits w : Nat) : State :=
  s.readyToFetch.setBytesFrom s.readyToFetch.pc.toNat (wordBytes (tableWord nbits w))

end Sys2Proof.Machine
end

