-- ==== Sys2Proof/Machine/HostActions.lean ====
section
/-! DEFINITION. What the host may do between steps besides stepping: spec/45_cycle_driver.md R250 to R254 and
spec/70_reset_and_hazards.md R290 and R294. -/

namespace Sys2Proof.Machine

/-- `set_key(k, pressed)`: the key state, and on a press the latch (R250). A release leaves the latch. -/
def State.setKey (s : State) (k : Key) (pressed : Bool) : State :=
  { s with key := s.key.set k pressed, lk := if pressed then some k else s.lk }

/-- The query "what is the latched last key" (R251); the query "is key K down" is `State.keyDown`. -/
def State.lastKey (s : State) : Option Key := s.lk

/-- The renderer's read of one pixel (R252). -/
def State.readPixel (s : State) (x : Fin 64) (y : Fin 32) : Bool := Display.pixel s.display x y

/-- The core's only sound output: ST > 0 (R253). -/
def State.soundOn (s : State) : Bool := decide (0 < s.st.toNat)

/-- The report of a fatal error (R254, R264). -/
def State.faultReport (s : State) : Option FaultRecord := s.fault

/-- Reset as a host action (R290): every element to its reset value, under the same parameters (D40). The random input
is the host's, so reset does not rewind it (log entry 11). -/
def State.resetAction (s : State) : State :=
  { State.resetWith s.cfg with rndQueue := s.rndQueue, draws := s.draws }

/-- The longest image a load accepts (R294). -/
def maxImage : Nat := 0xE00

/-- Whether a load is accepted (R294, D30). -/
def loadAccepted (image : List Byte) : Bool := decide (image.length ≤ maxImage)

/-- `load(b[0..L-1])` (R294): the bytes from 0x200 upward, or nothing at all where the image is too long. -/
def State.load (s : State) (image : List Byte) : State :=
  if loadAccepted image then s.setBytesFrom programStart.toNat image else s

end Sys2Proof.Machine
end

