-- ==== Sys2Proof/Machine/Environment.lean ====
section
/-! DEFINITION. A run: a finite sequence of steps and host actions, in the order the host chose (spec/45_cycle_driver.md
R255, R256). -/

namespace Sys2Proof.Machine

/-- What the host may do to the core (R255). A key outside 0 to 15 is no admitted action (R250), which the type says. -/
inductive HostAction where
  /-- call `step(s, rnd)` (R230) -/
  | step (rnd : Byte)
  /-- call `set_key` (R250) -/
  | setKey (k : Key) (pressed : Bool)
  /-- reset (R290) -/
  | reset
  /-- load a program image (R294) -/
  | load (image : List Byte)
deriving DecidableEq, Repr

/-- One action. -/
def perform (a : HostAction) (s : State) : Host.Outcome State Fault Refusal :=
  match a with
  | .step rnd => stepWith rnd s
  | .setKey k pressed => .next (s.setKey k pressed)
  | .reset => .next s.resetAction
  | .load image => .next (s.load image)

/-- A run (R256). -/
def run : List HostAction → State → Host.Outcome State Fault Refusal
  | [], s => .next s
  | a :: as, s =>
    match perform a s with
    | .next t => run as t
    | .fault r => .fault r
    | .refused r => .refused r

end Sys2Proof.Machine
end

