-- ==== Sys2Proof/Safety.lean ====
section
/-! DEFINITION. What counts as a safe step and a normal end, what each instruction may change, and the invariant every
step keeps. Claims are stated in these terms. -/

namespace Sys2Proof.Machine

/-! ## Running, halted, ended -/

/-- The core is halted by a fault (R238). -/
def State.halted (s : State) : Bool := s.fault.isSome

/-- A run ended normally: the host stopped stepping, and FAULT is none (R256, D35). -/
def endsNormally : Host.Outcome State Fault Refusal → Bool
  | .next t => !t.halted
  | .fault _ => false
  | .refused _ => false

/-- The fault an instruction raises in a state: the conditions of R260, cause by cause. -/
def faultOf (i : Instr) (s : State) : Option Fault :=
  match i with
  | .callSubroutine _ => if s.sp.val = 16 then some .stackOverflow else none
  | .ret => if s.sp.val = 0 then some .stackUnderflow else none
  | .draw _ _ n => if 0 < n.val ∧ 0x0FFF < s.i.toNat + n.val - 1 then some .memoryOutOfRange else none
  | .storeBCD _ => if 0x0FFF < s.i.toNat + 2 then some .memoryOutOfRange else none
  | .storeRegs x => if 0x0FFF < s.i.toNat + x.val then some .memoryOutOfRange else none
  | .loadRegs x => if 0x0FFF < s.i.toNat + x.val then some .memoryOutOfRange else none
  | .skipIfKeyDown x => if 0x0F < (s.reg x).toNat then some .keyIndexOutOfRange else none
  | .skipIfKeyUp x => if 0x0F < (s.reg x).toNat then some .keyIndexOutOfRange else none
  | .sys _ | .clearScreen | .jump _ | .skipIfEqualByte _ _ | .skipIfNotEqualByte _ _ | .skipIfEqualReg _ _ | .loadByte _ _ => none
  | .addByte _ _ | .loadReg _ _ | .or _ _ | .and _ _ | .xor _ _ | .addReg _ _ | .subReg _ _ | .shiftRight _ _ => none
  | .subNReg _ _ | .shiftLeft _ _ | .skipIfNotEqualReg _ _ | .loadIndex _ | .jumpV0 _ | .random _ _ | .loadDelay _ => none
  | .waitKey _ | .setDelay _ | .setSound _ | .addIndex _ | .loadFont _ | .noOp _ => none

/-- What software must respect for the next step not to fault (R298). -/
def safeToStep (s : State) : Bool := !s.fetchOutOfRange && (faultOf (decode s.fetchWord) s).isNone

/-! ## What changes and what does not -/

/-- The elements of the tuple of R20, and the model's own fields: the parameters and the random input. -/
inductive Elem where
  | mem | v | i | pc | stack | sp | dt | st | key | lk | acc | display | fault | cfg | rnd
deriving DecidableEq, Repr

/-- An element is the same in two states; memory is compared byte by byte. -/
def Elem.same (e : Elem) (s t : State) : Prop :=
  match e with
  | .mem => ∀ a, t.byteAt a = s.byteAt a
  | .v => ∀ r, t.reg r = s.reg r
  | .i => t.i = s.i
  | .pc => t.pc = s.pc
  | .stack => t.stack = s.stack
  | .sp => t.sp = s.sp
  | .dt => t.dt = s.dt
  | .st => t.st = s.st
  | .key => t.key = s.key
  | .lk => t.lk = s.lk
  | .acc => t.acc = s.acc
  | .display => t.display = s.display
  | .fault => t.fault = s.fault
  | .cfg => t.cfg = s.cfg
  | .rnd => t.rndQueue = s.rndQueue ∧ t.draws = s.draws

/-- Every element but those listed is the same in `t` as in `s`. -/
def keptExcept (changed : List Elem) (s t : State) : Prop := ∀ e, e ∉ changed → e.same s t

/-- The elements other than the pc that the rule of an instruction writes (R37, R58). -/
def writes : Instr → List Elem
  | .sys _ | .noOp _ | .jump _ | .jumpV0 _ => []
  | .skipIfEqualByte _ _ | .skipIfNotEqualByte _ _ | .skipIfEqualReg _ _ | .skipIfNotEqualReg _ _ => []
  | .skipIfKeyDown _ | .skipIfKeyUp _ => []
  | .ret => [.sp]
  | .callSubroutine _ => [.stack, .sp]
  | .clearScreen => [.display]
  | .draw _ _ _ => [.display, .v]
  | .loadByte _ _ | .addByte _ _ | .loadReg _ _ | .or _ _ | .and _ _ | .xor _ _ | .random _ _ | .loadDelay _ => [.v]
  | .addReg _ _ | .subReg _ _ | .subNReg _ _ | .shiftRight _ _ | .shiftLeft _ _ => [.v]
  | .loadIndex _ | .addIndex _ | .loadFont _ => [.i]
  | .storeBCD _ => [.mem]
  | .storeRegs _ => [.mem, .i]
  | .loadRegs _ => [.v, .i]
  | .waitKey _ => [.v, .lk]
  | .setDelay _ => [.dt]
  | .setSound _ => [.st]

/-- The registers the rule of an instruction writes: its destination, and VF where it defines a flag (R23). -/
def writesReg (i : Instr) (r : Reg) : Bool :=
  match i with
  | .loadByte x _ | .addByte x _ | .loadReg x _ | .or x _ | .and x _ | .xor x _ | .random x _ | .loadDelay x | .waitKey x => r == x
  | .addReg x _ | .subReg x _ | .subNReg x _ | .shiftRight x _ | .shiftLeft x _ => r == x || r == vf
  | .draw _ _ _ => r == vf
  | .loadRegs x => decide (r.val ≤ x.val)
  | .sys _ | .clearScreen | .ret | .jump _ | .callSubroutine _ | .skipIfEqualByte _ _ | .skipIfNotEqualByte _ _ => false
  | .skipIfEqualReg _ _ | .skipIfNotEqualReg _ _ | .loadIndex _ | .jumpV0 _ | .skipIfKeyDown _ | .skipIfKeyUp _ => false
  | .setDelay _ | .setSound _ | .addIndex _ | .loadFont _ | .storeBCD _ | .storeRegs _ | .noOp _ => false

/-- The first address an instruction stores to and how many bytes it stores from there upward (R57, R58): none for
every instruction but LD B, Vx and LD [I], Vx. -/
def storedBlock (i : Instr) (s : State) : Option (Nat × Nat) :=
  match i with
  | .storeBCD _ => some (s.i.toNat, 3)
  | .storeRegs x => some (s.i.toNat, x.val + 1)
  | .sys _ | .clearScreen | .ret | .jump _ | .callSubroutine _ | .skipIfEqualByte _ _ | .skipIfNotEqualByte _ _ => none
  | .skipIfEqualReg _ _ | .loadByte _ _ | .addByte _ _ | .loadReg _ _ | .or _ _ | .and _ _ | .xor _ _ | .addReg _ _ => none
  | .subReg _ _ | .shiftRight _ _ | .subNReg _ _ | .shiftLeft _ _ | .skipIfNotEqualReg _ _ | .loadIndex _ | .jumpV0 _ => none
  | .random _ _ | .draw _ _ _ | .skipIfKeyDown _ | .skipIfKeyUp _ | .loadDelay _ | .waitKey _ | .setDelay _ | .setSound _ => none
  | .addIndex _ | .loadFont _ | .loadRegs _ | .noOp _ => none

/-- An address is one of those an instruction stores to. -/
def storesTo (i : Instr) (s : State) (a : Nat) : Bool :=
  match storedBlock i s with
  | some (first, n) => decide (first ≤ a) && decide (a < first + n)
  | none => false

/-- The next pc of an instruction that does not fault, tag by tag, as a number (R80). -/
def nextPc (i : Instr) (s : State) : Nat :=
  let skip (c : Bool) : Nat := s.pc.toNat + if c then 4 else 2
  match i with
  | .jump nnn | .callSubroutine nnn => nnn.toNat
  | .jumpV0 nnn => nnn.toNat + (s.reg 0).toNat
  | .ret => (s.stack[s.sp.val - 1]?.getD 0).toNat + 2
  | .skipIfEqualByte x kk => skip (s.reg x == kk)
  | .skipIfNotEqualByte x kk => skip (s.reg x != kk)
  | .skipIfEqualReg x y => skip (s.reg x == s.reg y)
  | .skipIfNotEqualReg x y => skip (s.reg x != s.reg y)
  | .skipIfKeyDown x => skip (s.key[(s.reg x).toNat]?.getD false)
  | .skipIfKeyUp x => skip (!s.key[(s.reg x).toNat]?.getD false)
  | .waitKey _ => if s.lk = none then s.pc.toNat else s.pc.toNat + 2
  | .sys _ | .clearScreen | .loadByte _ _ | .addByte _ _ | .loadReg _ _ | .or _ _ | .and _ _ | .xor _ _ => s.pc.toNat + 2
  | .addReg _ _ | .subReg _ _ | .shiftRight _ _ | .subNReg _ _ | .shiftLeft _ _ | .loadIndex _ | .random _ _ => s.pc.toNat + 2
  | .draw _ _ _ | .loadDelay _ | .setDelay _ | .setSound _ | .addIndex _ | .loadFont _ | .storeBCD _ => s.pc.toNat + 2
  | .storeRegs _ | .loadRegs _ | .noOp _ => s.pc.toNat + 2

/-- A pixel is covered by a set bit of a sprite of `n` rows at `I`, whose top left corner is (xs, ys): some set bit of
some row wraps to it (R196, R197, R200). -/
def spriteCovers (s : State) (xs ys n : Nat) (x : Fin 64) (y : Fin 32) : Prop :=
  ∃ r c, r < n ∧ c < 8 ∧ (s.byteAt (s.i.toNat + r)).getLsbD (7 - c) = true ∧ (xs + c) % 64 = x.val ∧ (ys + r) % 32 = y.val

/-! ## The default font, as the spec's table writes it -/

/-- The table of R293, row by row: the address of a digit's glyph and its five bytes (the spec marks the bytes as general
knowledge, and the choice of this font as the default is its decision D15). -/
def defaultGlyphs : List (Nat × List Byte) :=
  [(0x000, [0xF0, 0x90, 0x90, 0x90, 0xF0]),
   (0x005, [0x20, 0x60, 0x20, 0x20, 0x70]),
   (0x00A, [0xF0, 0x10, 0xF0, 0x80, 0xF0]),
   (0x00F, [0xF0, 0x10, 0xF0, 0x10, 0xF0]),
   (0x014, [0x90, 0x90, 0xF0, 0x10, 0x10]),
   (0x019, [0xF0, 0x80, 0xF0, 0x10, 0xF0]),
   (0x01E, [0xF0, 0x80, 0xF0, 0x90, 0xF0]),
   (0x023, [0xF0, 0x10, 0x20, 0x40, 0x40]),
   (0x028, [0xF0, 0x90, 0xF0, 0x90, 0xF0]),
   (0x02D, [0xF0, 0x90, 0xF0, 0x10, 0xF0]),
   (0x032, [0xF0, 0x90, 0xF0, 0x90, 0x90]),
   (0x037, [0xE0, 0x90, 0xE0, 0x90, 0xE0]),
   (0x03C, [0xF0, 0x80, 0x80, 0x80, 0xF0]),
   (0x041, [0xE0, 0x90, 0x90, 0x90, 0xE0]),
   (0x046, [0xF0, 0x80, 0xF0, 0x80, 0xF0]),
   (0x04B, [0xF0, 0x80, 0xF0, 0x80, 0x80])]

/-! ## The invariant -/

/-- What holds of every state the core can be in: memory in its one form, the accumulator below the ratio (R31), the pc
at most 0x10FE (R26), the return addresses in use at most 0x0FFE (R26), and a fault record that names the pc the core
halted at and has no word exactly for a fetch fault (R35, R264). -/
structure State.Inv (s : State) : Prop where
  memory : Memory.wf s.cfg.font s.mem = true
  acc : s.acc < s.cfg.cyclesPerTick
  pc : s.pc.toNat ≤ 0x10FE
  stack : ∀ k : Fin 16, k.val < s.sp.val → (s.stack[k]).toNat ≤ 0x0FFE
  fault : ∀ r, s.fault = some r → r.pc = s.pc ∧ (r.word = none ↔ r.cause = .fetchOutOfRange)

end Sys2Proof.Machine
end

