-- ==== Sys2Proof/Certificates/Slice0/Obligations.lean ====
section
/-! DEFINITION. The statements for the provers. Each docstring names the rules of spec/ it formalises and whether a
clause rests on a mark of the spec ([decision], [derived], [from general knowledge]) or on a log entry of this model. -/

open Sys2Proof Sys2Proof.Machine

/-! ## Encoding -/

/-- R82 with R75 and R76: decoding the word of a well-formed instruction gives the instruction back, for every operand. -/
def Obligations.DecodeOfEncodeIsIdentity : Prop :=
  ∀ i : Instr, i.wellFormed = true → decode (encode i) = i

/-- R73, R75 and R78, the other direction: every one of the 65536 words decodes to a well-formed instruction whose word
it is, so decoding drops no bit of any word. -/
def Obligations.EncodeOfDecodeIsIdentity : Prop :=
  ∀ w : Word, (decode w).wellFormed = true ∧ encode (decode w) = w

/-- R76, the opcode map: each row's word, written from its encoding column with every operand value, decodes to the
row's instruction; SYS for every 0nnn but the two words above it. The spec marks most bit patterns as general knowledge,
and 5xy0 and 9xy0 rest on its decision D20. -/
def Obligations.OpcodeMapRows : Prop :=
  (∀ nnn : Addr12, nnn ≠ 0x0E0 → nnn ≠ 0x0EE → decode (BitVec.ofNat 16 nnn.toNat) = .sys nnn) ∧
  decode 0x00E0 = .clearScreen ∧ decode 0x00EE = .ret ∧
  (∀ nnn : Addr12,
    decode (BitVec.ofNat 16 (0x1000 + nnn.toNat)) = .jump nnn ∧
    decode (BitVec.ofNat 16 (0x2000 + nnn.toNat)) = .callSubroutine nnn ∧
    decode (BitVec.ofNat 16 (0xA000 + nnn.toNat)) = .loadIndex nnn ∧
    decode (BitVec.ofNat 16 (0xB000 + nnn.toNat)) = .jumpV0 nnn) ∧
  (∀ (x : Reg) (kk : Byte),
    decode (BitVec.ofNat 16 (0x3000 + 256 * x.val + kk.toNat)) = .skipIfEqualByte x kk ∧
    decode (BitVec.ofNat 16 (0x4000 + 256 * x.val + kk.toNat)) = .skipIfNotEqualByte x kk ∧
    decode (BitVec.ofNat 16 (0x6000 + 256 * x.val + kk.toNat)) = .loadByte x kk ∧
    decode (BitVec.ofNat 16 (0x7000 + 256 * x.val + kk.toNat)) = .addByte x kk ∧
    decode (BitVec.ofNat 16 (0xC000 + 256 * x.val + kk.toNat)) = .random x kk) ∧
  (∀ x y : Reg,
    decode (BitVec.ofNat 16 (0x5000 + 256 * x.val + 16 * y.val)) = .skipIfEqualReg x y ∧
    decode (BitVec.ofNat 16 (0x8000 + 256 * x.val + 16 * y.val)) = .loadReg x y ∧
    decode (BitVec.ofNat 16 (0x8001 + 256 * x.val + 16 * y.val)) = .or x y ∧
    decode (BitVec.ofNat 16 (0x8002 + 256 * x.val + 16 * y.val)) = .and x y ∧
    decode (BitVec.ofNat 16 (0x8003 + 256 * x.val + 16 * y.val)) = .xor x y ∧
    decode (BitVec.ofNat 16 (0x8004 + 256 * x.val + 16 * y.val)) = .addReg x y ∧
    decode (BitVec.ofNat 16 (0x8005 + 256 * x.val + 16 * y.val)) = .subReg x y ∧
    decode (BitVec.ofNat 16 (0x8006 + 256 * x.val + 16 * y.val)) = .shiftRight x y ∧
    decode (BitVec.ofNat 16 (0x8007 + 256 * x.val + 16 * y.val)) = .subNReg x y ∧
    decode (BitVec.ofNat 16 (0x800E + 256 * x.val + 16 * y.val)) = .shiftLeft x y ∧
    decode (BitVec.ofNat 16 (0x9000 + 256 * x.val + 16 * y.val)) = .skipIfNotEqualReg x y) ∧
  (∀ (x y : Reg) (n : Rows), decode (BitVec.ofNat 16 (0xD000 + 256 * x.val + 16 * y.val + n.val)) = .draw x y n) ∧
  (∀ x : Reg,
    decode (BitVec.ofNat 16 (0xE09E + 256 * x.val)) = .skipIfKeyDown x ∧
    decode (BitVec.ofNat 16 (0xE0A1 + 256 * x.val)) = .skipIfKeyUp x ∧
    decode (BitVec.ofNat 16 (0xF007 + 256 * x.val)) = .loadDelay x ∧
    decode (BitVec.ofNat 16 (0xF00A + 256 * x.val)) = .waitKey x ∧
    decode (BitVec.ofNat 16 (0xF015 + 256 * x.val)) = .setDelay x ∧
    decode (BitVec.ofNat 16 (0xF018 + 256 * x.val)) = .setSound x ∧
    decode (BitVec.ofNat 16 (0xF01E + 256 * x.val)) = .addIndex x ∧
    decode (BitVec.ofNat 16 (0xF029 + 256 * x.val)) = .loadFont x ∧
    decode (BitVec.ofNat 16 (0xF033 + 256 * x.val)) = .storeBCD x ∧
    decode (BitVec.ofNat 16 (0xF055 + 256 * x.val)) = .storeRegs x ∧
    decode (BitVec.ofNat 16 (0xF065 + 256 * x.val)) = .loadRegs x)

/-- R78 (the spec marks it [derived], and its rows 5xyN and 9xyN rest on decision D20): exactly the words it lists decode
to NoOp, and a NoOp carries its own word (the model's: log entry 13). -/
def Obligations.NoOpExactlyOnUnmatchedWords : Prop :=
  ∀ w : Word,
    (decode w = .noOp w ↔
      (w.toNat / 4096 = 0x5 ∧ w.toNat % 16 ≠ 0) ∨
      (w.toNat / 4096 = 0x8 ∧ (8 ≤ w.toNat % 16 ∧ w.toNat % 16 ≤ 0xD ∨ w.toNat % 16 = 0xF)) ∨
      (w.toNat / 4096 = 0x9 ∧ w.toNat % 16 ≠ 0) ∨
      (w.toNat / 4096 = 0xE ∧ w.toNat % 256 ≠ 0x9E ∧ w.toNat % 256 ≠ 0xA1) ∨
      (w.toNat / 4096 = 0xF ∧ w.toNat % 256 ∉ [0x07, 0x0A, 0x15, 0x18, 0x1E, 0x29, 0x33, 0x55, 0x65])) ∧
    (∀ u, decode w = .noOp u → u = w)

/-- 95_test_vectors.md VD1 to VD27, a few of them: words and what they decode to. -/
def Obligations.SampleWordsDecode : Prop :=
  decode 0x0000 = .sys 0x000 ∧ decode 0x00E0 = .clearScreen ∧ decode 0x00EE = .ret ∧ decode 0x00E1 = .sys 0x0E1 ∧
  decode 0x2ABC = .callSubroutine 0xABC ∧ decode 0x3F7E = .skipIfEqualByte 0xF 0x7E ∧
  decode 0x8AB6 = .shiftRight 0xA 0xB ∧ decode 0x8AB8 = .noOp 0x8AB8 ∧ decode 0xB123 = .jumpV0 0x123 ∧
  decode 0xE59F = .noOp 0xE59F ∧ decode 0xF165 = .loadRegs 1

/-- R70 and R73: an instruction is the first two bytes, high byte first, and only a list too short for a word is rejected. -/
def Obligations.DecodingTakesTwoBytes : Prop :=
  (∀ (hi lo : Byte) (rest : List Byte), ∃ i : Instr, decodeBytes (hi :: lo :: rest) = .ok (i, rest) ∧
    (encode i).toNat = hi.toNat * 256 + lo.toNat) ∧
  decodeBytes [] = .error .noBytes ∧ (∀ b : Byte, decodeBytes [b] = .error .noLowByte)

/-! ## The step -/

/-- R231 and R233: in a core that is not halted, with pc at most 0x0FFE (even or odd), a step is the execute of the
instruction the two bytes at pc decode to, in the very state the step began in, followed by the driver's count where
that execute did not fault. -/
def Obligations.StepRunsTheDecodedInstruction : Prop :=
  ∀ (s : State) (i : Instr), s.fault = none → s.pc.toNat ≤ 0x0FFE →
    decodeBytes [s.byteAt s.pc.toNat, s.byteAt (s.pc.toNat + 1)] = .ok (i, []) → i.wellFormed = true →
    ∃ t, exec i s = .next t ∧ step s = .next (if t.fault = none then t.countStep.dropRnd else t)

/-- R232 (the spec's decision D7): with pc above 0x0FFE the step records FETCH_OUT_OF_RANGE, with no word, and changes
nothing else. -/
def Obligations.FetchBeyondMemoryFaults : Prop :=
  ∀ s : State, s.fault = none → 0x0FFE < s.pc.toNat →
    step s = .next { s with fault := some { cause := .fetchOutOfRange, pc := s.pc, word := none } }

/-- R238 (the spec's decision D24): a halted core stays exactly as it is, for any number of steps. -/
def Obligations.HaltedCoreChangesNothing : Prop :=
  ∀ (n : Nat) (s : State), s.fault ≠ none → Host.Core.run core n s = .next s

/-- R260, R237 and R264 (the spec's decisions D5, D6, D19, D24): every instruction, in every state, answers a next
state; where the condition of its row of the fault table holds, that state is the state before with the FAULT record
added; elsewhere no fault is recorded. -/
def Obligations.FaultsAreExactlyTheFaultTable : Prop :=
  ∀ (i : Instr) (s : State), ∃ t, exec i s = .next t ∧
    (faultOf i s = none → t.fault = s.fault) ∧
    (∀ c, faultOf i s = some c → t = { s with fault := some { cause := c, pc := s.pc, word := some (encode i) } })

/-- R237 at the level of the step: a step that executes and faults leaves the whole state as it was but for FAULT,
which records the cause, the pc and the FETCHED word. -/
def Obligations.FaultingStepCommitsNothing : Prop :=
  ∀ (s : State) (c : Fault), s.fault = none → s.pc.toNat ≤ 0x0FFE → faultOf (decode s.fetchWord) s = some c →
    step s = .next { s with fault := some { cause := c, pc := s.pc, word := some s.fetchWord } }

/-- R298 (the spec marks it [derived]): a running core steps without a fault exactly when pc is in range and the
instruction's condition of the fault table does not hold. -/
def Obligations.StepFaultsExactlyWhenUnsafe : Prop :=
  ∀ s : State, s.fault = none → ∃ t, step s = .next t ∧ (t.fault = none ↔ safeToStep s = true)

/-- R37 and R58 (the spec marks both [derived]): the frame of all 36 instructions. Where an instruction does not fault,
it leaves every element outside its row of the table as it was, every register it is not said to write, and every byte
of memory outside the block it stores, whose address the row computes from I. -/
def Obligations.InstructionFrames : Prop :=
  ∀ (i : Instr) (s t : State), faultOf i s = none → exec i s = .next t →
    keptExcept (.pc :: writes i) s t ∧
    (∀ r, writesReg i r = false → t.reg r = s.reg r) ∧
    (∀ a, storesTo i s a = false → t.byteAt a = s.byteAt a)

/-- R80: the pc every instruction that does not fault leaves, tag by tag, as a number, so that no addition wraps (the
rows of JP V0, RET and LD Vx, K rest on the spec's decisions D8, D4 and D18). The invariant supplies that a return
address in use is at most 0x0FFE. -/
def Obligations.NextPcTable : Prop :=
  ∀ (i : Instr) (s : State), s.Inv → s.pc.toNat ≤ 0x0FFE → faultOf i s = none →
    ∃ t, exec i s = .next t ∧ t.pc.toNat = nextPc i s

/-- R235 and R236: a step whose execute ended in `t` without a fault counts: at the ratio the accumulator returns to 0 and each
timer goes down by one unless it is 0; elsewhere the accumulator goes up by one and the timers stay. Nothing else of
the tuple moves after the execute. -/
def Obligations.CompletedStepCountsAndTicks : Prop :=
  ∀ s t : State, s.fault = none → s.pc.toNat ≤ 0x0FFE → exec (decode s.fetchWord) s = .next t → t.fault = none →
    ∃ u, step s = .next u ∧
      (s.acc + 1 = s.cfg.cyclesPerTick →
        u.acc = 0 ∧ u.dt.toNat = t.dt.toNat - 1 ∧ u.st.toNat = t.st.toNat - 1) ∧
      (s.acc + 1 ≠ s.cfg.cyclesPerTick → u.acc = s.acc + 1 ∧ u.dt = t.dt ∧ u.st = t.st) ∧
      keptExcept [.acc, .dt, .st, .rnd] t u

/-- R239 (the spec marks it [derived]): over `n` completed steps that write no timer, the accumulator counts modulo the
ratio and each timer goes down once for each full ratio counted, stopping at 0: the law is exact. -/
def Obligations.TimersCountDownExactly : Prop :=
  ∀ (n : Nat) (s : State), s.acc < s.cfg.cyclesPerTick →
    (State.countStep^[n] s).acc = (s.acc + n) % s.cfg.cyclesPerTick ∧
    (State.countStep^[n] s).dt.toNat = s.dt.toNat - (s.acc + n) / s.cfg.cyclesPerTick ∧
    (State.countStep^[n] s).st.toNat = s.st.toNat - (s.acc + n) / s.cfg.cyclesPerTick

/-- R64 and R55 (R64 rests on the spec's decision D28): a byte written is the byte the next fetch sees, in its place of
the big-endian word. -/
def Obligations.FetchSeesStores : Prop :=
  ∀ (s : State) (a : Nat) (u : Byte), Memory.wf s.cfg.font s.mem = true →
    (s.setByte a u).fetchWord =
      (if s.pc.toNat = a then u else s.byteAt s.pc.toNat) ++ (if s.pc.toNat + 1 = a then u else s.byteAt (s.pc.toNat + 1))

/-- Log entry 8 (the model's own): a table word placed by `withFetchWord` is the instruction the very next step runs,
from every state in canonical memory, and only memory, FAULT and an out-of-range pc change for it. -/
def Obligations.PlacedWordRunsNext : Prop :=
  ∀ (s : State) (w : Word), Memory.wf s.cfg.font s.mem = true →
    step (s.withFetchWord 16 w.toNat) = finish (exec (decode w) (s.withFetchWord 16 w.toNat)) ∧
    decodeTableWord 16 w.toNat = some (decode w) ∧
    keptExcept [.mem, .pc, .fault] s (s.withFetchWord 16 w.toNat) ∧
    (s.pc.toNat ≤ 0x0FFE → (s.withFetchWord 16 w.toNat).pc = s.pc)

/-- R13 and R146 (the spec's decision D22): a step that does not execute RND has the same result whatever random byte it is given. -/
def Obligations.OnlyRandomReadsTheRandomByte : Prop :=
  ∀ (s : State) (a b : Byte), (∀ x kk, decode s.fetchWord ≠ .random x kk) → stepWith a s = stepWith b s

/-! ## The invariant and the whole machine -/

/-- R38 and R290: the reset state satisfies the invariant under every legal ratio, and under the defaults. -/
def Obligations.ResetSatisfiesInvariant : Prop :=
  (∀ cfg : Config, 1 ≤ cfg.cyclesPerTick → (State.resetWith cfg).Inv) ∧ State.reset.Inv

/-- R26, R28, R31, R35 and the canonical form of memory: every step keeps the invariant. -/
def Obligations.StepKeepsInvariant : Prop :=
  ∀ s t : State, s.Inv → step s = .next t → t.Inv

/-- R255 and R256: every run, a sequence of steps and host actions in any order, keeps the invariant. -/
def Obligations.RunKeepsInvariant : Prop :=
  ∀ (as : List HostAction) (s t : State), s.Inv → run as s = .next t → t.Inv

/-- R256 and R21 (D40): a run always reaches a state (the core never stops answering), and the parameters are those it began with. -/
def Obligations.RunsGoOnUnderFixedParameters : Prop :=
  ∀ (as : List HostAction) (s : State), ∃ t, run as s = .next t ∧ t.cfg = s.cfg

/-- Log entry 5 (the model's own): two memories in the canonical form that read the same at every address are the same list. -/
def Obligations.CanonicalMemoryIsUnique : Prop :=
  ∀ (font : Font) (m m' : Memory), Memory.wf font m = true → Memory.wf font m' = true →
    (∀ a, Memory.read font m a = Memory.read font m' a) → m = m'

/-- R38: what reset leaves. The pc, the cleared display and the zeroed memory are the source's, and so is that a font
stands at 0x000 to 0x04F. The register values, the empty latch, the keys, ACC and FAULT are the spec's decisions D1 to
D4, D24 and D29. The font's bytes, written out in `defaultGlyphs` from the table of R293, are general knowledge by the
spec's own mark (decision D15; log entry 10, PRESUMED). That `State.reset` takes this font and the ratio 9 (R9, D44) is
the model's choice of the spec's defaults for two parameters (log entry 1, DESIGN CHOICE). -/
def Obligations.ResetState : Prop :=
  (∀ glyph ∈ defaultGlyphs, (List.range 5).map (fun k => State.reset.byteAt (glyph.1 + k)) = glyph.2) ∧
  (∀ a, 80 ≤ a → State.reset.byteAt a = 0) ∧
  (∀ r, State.reset.reg r = 0) ∧ State.reset.i = 0 ∧ State.reset.pc = 0x200 ∧
  (∀ k : Fin 16, State.reset.stack[k] = 0) ∧ State.reset.sp = 0 ∧ State.reset.dt = 0 ∧ State.reset.st = 0 ∧
  (∀ k, State.reset.keyDown k = false) ∧ State.reset.lk = none ∧ State.reset.acc = 0 ∧
  (∀ x y, State.reset.readPixel x y = false) ∧ State.reset.fault = none ∧ State.reset.cfg.cyclesPerTick = 9

/-! ## Control flow -/

/-- R100: every 0nnn but the words of CLS and RET is SYS, and SYS changes nothing but pc, which goes up by 2. -/
def Obligations.SysOnlyAdvances : Prop :=
  ∀ (nnn : Addr12) (s : State),
    (nnn ≠ 0x0E0 → nnn ≠ 0x0EE → decode (BitVec.ofNat 16 nnn.toNat) = .sys nnn) ∧
    exec (.sys nnn) s = .next { s with pc := s.pc + 2 }

/-- R114: every unmatched word is a NoOp, and a NoOp changes nothing but pc, which goes up by 2; it is never a fault. Which
words are unmatched is the list of R78, which the spec marks [derived], its rows 5xyN and 9xyN resting on the spec's
decision D20; that the NoOp carries its word is the model's (log entry 13, DEDUCED). -/
def Obligations.NoOpOnlyAdvances : Prop :=
  ∀ (w : Word) (s : State),
    (unmatched w = true → decode w = .noOp w) ∧ exec (.noOp w) s = .next { s with pc := s.pc + 2 }

/-- R103 (its meaning is marked by the spec as general knowledge): JP nnn sets pc to nnn and changes nothing else. -/
def Obligations.JumpSetsPc : Prop :=
  ∀ (nnn : Addr12) (s : State),
    decode (BitVec.ofNat 16 (0x1000 + nnn.toNat)) = .jump nnn ∧
    ∃ t, exec (.jump nnn) s = .next t ∧ t.pc.toNat = nnn.toNat ∧ keptExcept [.pc] s t

/-- R113 (the spec's decision D8): JP V0, nnn sets pc to the exact sum nnn + V0, above 0xFFF too, and changes nothing else. -/
def Obligations.JumpV0SetsPcToTheExactSum : Prop :=
  ∀ (nnn : Addr12) (s : State),
    decode (BitVec.ofNat 16 (0xB000 + nnn.toNat)) = .jumpV0 nnn ∧
    ∃ t, exec (.jumpV0 nnn) s = .next t ∧ t.pc.toNat = nnn.toNat + (s.reg 0).toNat ∧ keptExcept [.pc] s t

/-- R102 and R261 (the spec's decisions D4 and D5): CALL nnn stores its own address in the next free slot, uses one slot
more and jumps; with all 16 slots in use it is STACK_OVERFLOW and nothing else changes. -/
def Obligations.CallPushesItsOwnAddress : Prop :=
  ∀ (nnn : Addr12) (s : State),
    (s.sp.val < 16 → ∃ t, exec (.callSubroutine nnn) s = .next t ∧ t.sp.val = s.sp.val + 1 ∧ t.pc.toNat = nnn.toNat ∧
      (∀ k : Fin 16, t.stack[k] = if k.val = s.sp.val then s.pc else s.stack[k]) ∧ keptExcept [.stack, .sp, .pc] s t) ∧
    (s.sp.val = 16 → exec (.callSubroutine nnn) s =
      .next { s with fault := some { cause := .stackOverflow, pc := s.pc, word := some (BitVec.ofNat 16 (0x2000 + nnn.toNat)) } })

/-- R101 and R261 (the spec's decisions D4 and D5): RET takes the last slot in use, goes on 2 bytes past the address it
holds, and leaves the slot's value; with no slot in use it is STACK_UNDERFLOW and nothing else changes. -/
def Obligations.ReturnPopsAndAdvances : Prop :=
  ∀ s : State,
    (∀ k : Fin 16, s.sp.val = k.val + 1 → ∃ t, exec .ret s = .next t ∧ t.sp.val = k.val ∧ t.pc = s.stack[k] + 2 ∧
      keptExcept [.sp, .pc] s t) ∧
    (s.sp.val = 0 → exec .ret s =
      .next { s with fault := some { cause := .stackUnderflow, pc := s.pc, word := some 0x00EE } })

/-- R110 (the spec marks it [derived]): CALL nnn at p followed at once by a RET at nnn ends at p + 2 with SP as before,
and the slot keeps p. -/
def Obligations.CallThenReturnComesBack : Prop :=
  ∀ (s : State) (nnn : Addr12), s.fault = none → s.pc.toNat ≤ 0x0FFE → nnn.toNat ≤ 0x0FFE →
    s.fetchWord = BitVec.ofNat 16 (0x2000 + nnn.toNat) → s.byteAt nnn.toNat = 0x00 → s.byteAt (nnn.toNat + 1) = 0xEE →
    ∀ k : Fin 16, s.sp.val = k.val →
      ∃ u, Host.Core.run core 2 s = .next u ∧ u.pc = s.pc + 2 ∧ u.sp = s.sp ∧ u.stack[k] = s.pc

/-- R105 and R106 (their conditions are marked by the spec as general knowledge), with R104's distances: SE Vx, kk and
SNE Vx, kk step 4 where the condition holds and 2 elsewhere, and change nothing but pc. -/
def Obligations.SkipsOnAByte : Prop :=
  ∀ (x : Reg) (kk : Byte) (s : State),
    decode (BitVec.ofNat 16 (0x3000 + 256 * x.val + kk.toNat)) = .skipIfEqualByte x kk ∧
    decode (BitVec.ofNat 16 (0x4000 + 256 * x.val + kk.toNat)) = .skipIfNotEqualByte x kk ∧
    exec (.skipIfEqualByte x kk) s = .next { s with pc := if s.reg x = kk then s.pc + 4 else s.pc + 2 } ∧
    exec (.skipIfNotEqualByte x kk) s = .next { s with pc := if s.reg x ≠ kk then s.pc + 4 else s.pc + 2 }

/-- R107 and R108 (their encodings rest on the spec's decision D20): SE Vx, Vy and SNE Vx, Vy. -/
def Obligations.SkipsOnARegister : Prop :=
  ∀ (x y : Reg) (s : State),
    exec (.skipIfEqualReg x y) s = .next { s with pc := if s.reg x = s.reg y then s.pc + 4 else s.pc + 2 } ∧
    exec (.skipIfNotEqualReg x y) s = .next { s with pc := if s.reg x ≠ s.reg y then s.pc + 4 else s.pc + 2 } ∧
    exec (.skipIfEqualReg x x) s = .next { s with pc := s.pc + 4 } ∧
    exec (.skipIfNotEqualReg x x) s = .next { s with pc := s.pc + 2 }

/-! ## Loads, ALU and random -/

/-- R131, R132 and R133 (marked by the spec as general knowledge): LD Vx, kk; ADD Vx, kk, which wraps and sets no flag;
LD Vx, Vy. Each writes V[x] alone. -/
def Obligations.LoadsAndImmediateAdd : Prop :=
  (∀ (x : Reg) (kk : Byte) (s : State),
    decode (BitVec.ofNat 16 (0x6000 + 256 * x.val + kk.toNat)) = .loadByte x kk ∧
    ∃ t, exec (.loadByte x kk) s = .next t ∧ t.reg x = kk ∧
      (∀ r, r ≠ x → t.reg r = s.reg r) ∧ t.pc = s.pc + 2 ∧ keptExcept [.v, .pc] s t) ∧
  (∀ (x : Reg) (kk : Byte) (s : State),
    decode (BitVec.ofNat 16 (0x7000 + 256 * x.val + kk.toNat)) = .addByte x kk ∧
    ∃ t, exec (.addByte x kk) s = .next t ∧ (t.reg x).toNat = ((s.reg x).toNat + kk.toNat) % 256 ∧
      (∀ r, r ≠ x → t.reg r = s.reg r) ∧ t.pc = s.pc + 2 ∧ keptExcept [.v, .pc] s t) ∧
  (∀ (x y : Reg) (s : State),
    decode (BitVec.ofNat 16 (0x8000 + 256 * x.val + 16 * y.val)) = .loadReg x y ∧
    ∃ t, exec (.loadReg x y) s = .next t ∧ t.reg x = s.reg y ∧
      (∀ r, r ≠ x → t.reg r = s.reg r) ∧ t.pc = s.pc + 2 ∧ keptExcept [.v, .pc] s t)

/-- R134, R135 and R136 (the spec's decision D12 leaves VF alone): OR, AND and XOR bit by bit, into V[x] alone. -/
def Obligations.BitwiseLogic : Prop :=
  ∀ (x y : Reg) (s : State),
    (∃ t, exec (.or x y) s = .next t ∧ (∀ b, b < 8 → (t.reg x).getLsbD b = ((s.reg x).getLsbD b || (s.reg y).getLsbD b)) ∧
      (∀ r, r ≠ x → t.reg r = s.reg r) ∧ t.pc = s.pc + 2 ∧ keptExcept [.v, .pc] s t) ∧
    (∃ t, exec (.and x y) s = .next t ∧ (∀ b, b < 8 → (t.reg x).getLsbD b = ((s.reg x).getLsbD b && (s.reg y).getLsbD b)) ∧
      (∀ r, r ≠ x → t.reg r = s.reg r) ∧ t.pc = s.pc + 2 ∧ keptExcept [.v, .pc] s t) ∧
    (∃ t, exec (.xor x y) s = .next t ∧ (∀ b, b < 8 → (t.reg x).getLsbD b = ((s.reg x).getLsbD b != (s.reg y).getLsbD b)) ∧
      (∀ r, r ≠ x → t.reg r = s.reg r) ∧ t.pc = s.pc + 2 ∧ keptExcept [.v, .pc] s t)

/-- R137: ADD Vx, Vy leaves the sum modulo 256 in V[x] and the carry in VF; with x = 15 the carry is what VF holds (R130:
the order of the two writes is the spec's decision D11). -/
def Obligations.AddSetsCarry : Prop :=
  ∀ (x y : Reg) (s : State),
    decode (BitVec.ofNat 16 (0x8004 + 256 * x.val + 16 * y.val)) = .addReg x y ∧
    ∃ t, exec (.addReg x y) s = .next t ∧
      (x ≠ vf → (t.reg x).toNat = ((s.reg x).toNat + (s.reg y).toNat) % 256) ∧
      t.reg vf = (if 255 < (s.reg x).toNat + (s.reg y).toNat then 1 else 0) ∧
      (∀ r, r ≠ x → r ≠ vf → t.reg r = s.reg r) ∧ t.pc = s.pc + 2 ∧ keptExcept [.v, .pc] s t

/-- R138: SUB Vx, Vy leaves Vx - Vy modulo 256 in V[x], and VF = 1 iff Vx > Vy strictly: equal operands give 0.
With x = 15 the flag is what VF holds (the spec's decision D11). -/
def Obligations.SubSetsStrictNoBorrow : Prop :=
  ∀ (x y : Reg) (s : State),
    decode (BitVec.ofNat 16 (0x8005 + 256 * x.val + 16 * y.val)) = .subReg x y ∧
    ∃ t, exec (.subReg x y) s = .next t ∧
      (x ≠ vf → (t.reg x).toNat = ((s.reg x).toNat + 256 - (s.reg y).toNat) % 256) ∧
      t.reg vf = (if (s.reg y).toNat < (s.reg x).toNat then 1 else 0) ∧
      (∀ r, r ≠ x → r ≠ vf → t.reg r = s.reg r) ∧ t.pc = s.pc + 2 ∧ keptExcept [.v, .pc] s t

/-- R139: SUBN Vx, Vy is the mirror: Vy - Vx modulo 256 in V[x], and VF = 1 iff Vy > Vx strictly. With
x = 15 the flag is what VF holds (the spec's decision D11). -/
def Obligations.SubNSetsStrictNoBorrow : Prop :=
  ∀ (x y : Reg) (s : State),
    decode (BitVec.ofNat 16 (0x8007 + 256 * x.val + 16 * y.val)) = .subNReg x y ∧
    ∃ t, exec (.subNReg x y) s = .next t ∧
      (x ≠ vf → (t.reg x).toNat = ((s.reg y).toNat + 256 - (s.reg x).toNat) % 256) ∧
      t.reg vf = (if (s.reg x).toNat < (s.reg y).toNat then 1 else 0) ∧
      (∀ r, r ≠ x → r ≠ vf → t.reg r = s.reg r) ∧ t.pc = s.pc + 2 ∧ keptExcept [.v, .pc] s t

/-- R142: SHR shifts its source right by one into V[x], bit 7 becoming 0, and VF receives the source's bit 0. The source
is V[y] or V[x] by SHIFT_SOURCE, whichever value the parameter has; where it is left open (log entry 2) the source is
still one of the two. With x = 15 the flag is what VF holds (the spec's decision D11). -/
def Obligations.ShiftRightByOne : Prop :=
  ∀ (x y : Reg) (s : State),
    decode (BitVec.ofNat 16 (0x8006 + 256 * x.val + 16 * y.val)) = .shiftRight x y ∧
    (∀ c, s.cfg.shiftSource = some c → s.shiftSource = c) ∧
    ∀ src, src = (if s.shiftSource = .vy then s.reg y else s.reg x) →
      ∃ t, exec (.shiftRight x y) s = .next t ∧
        (x ≠ vf → (t.reg x).toNat = src.toNat / 2) ∧ (t.reg vf).toNat = src.toNat % 2 ∧
        (∀ r, r ≠ x → r ≠ vf → t.reg r = s.reg r) ∧ t.pc = s.pc + 2 ∧ keptExcept [.v, .pc] s t

/-- R144: SHL shifts its source left by one into V[x], bit 0 becoming 0, and VF receives the source's bit 7; the source
and x = 15 as in SHR. -/
def Obligations.ShiftLeftByOne : Prop :=
  ∀ (x y : Reg) (s : State),
    decode (BitVec.ofNat 16 (0x800E + 256 * x.val + 16 * y.val)) = .shiftLeft x y ∧
    (∀ c, s.cfg.shiftSource = some c → s.shiftSource = c) ∧
    ∀ src, src = (if s.shiftSource = .vy then s.reg y else s.reg x) →
      ∃ t, exec (.shiftLeft x y) s = .next t ∧
        (x ≠ vf → (t.reg x).toNat = src.toNat * 2 % 256) ∧ (t.reg vf).toNat = src.toNat / 128 ∧
        (∀ r, r ≠ x → r ≠ vf → t.reg r = s.reg r) ∧ t.pc = s.pc + 2 ∧ keptExcept [.v, .pc] s t

/-- R146 (the spec's decision D22: rnd is free): RND leaves `rnd AND kk` in V[x] alone, whatever the random byte is; it
is the byte the host supplies for the step where there is one, and else a free value (log entry 3). -/
def Obligations.RandomMasksTheStepsByte : Prop :=
  ∀ (x : Reg) (kk : Byte) (s : State),
    (∀ b q, s.rndQueue = b :: q → s.rnd = b) ∧
    ∃ t, exec (.random x kk) s = .next t ∧
      (∀ j, j < 8 → (t.reg x).getLsbD j = (s.rnd.getLsbD j && kk.getLsbD j)) ∧
      (∀ r, r ≠ x → t.reg r = s.reg r) ∧ t.pc = s.pc + 2 ∧ keptExcept [.v, .pc] s t

/-! ## Index and memory -/

/-- R170: LD I, nnn sets I to nnn, its upper four bits 0, and changes nothing else but pc. -/
def Obligations.LoadIndexSetsI : Prop :=
  ∀ (nnn : Addr12) (s : State),
    decode (BitVec.ofNat 16 (0xA000 + nnn.toNat)) = .loadIndex nnn ∧
    ∃ t, exec (.loadIndex nnn) s = .next t ∧ t.i.toNat = nnn.toNat ∧ t.pc = s.pc + 2 ∧ keptExcept [.i, .pc] s t

/-- R171 and R172 (the spec's decisions D13 and D14): ADD I, Vx adds modulo 65536 with no flag; LD F, Vx sets I to
5 * Vx, unmasked. Each writes I alone. -/
def Obligations.IndexArithmetic : Prop :=
  ∀ (x : Reg) (s : State),
    (∃ t, exec (.addIndex x) s = .next t ∧ t.i.toNat = (s.i.toNat + (s.reg x).toNat) % 65536 ∧ t.pc = s.pc + 2 ∧
      keptExcept [.i, .pc] s t) ∧
    (∃ t, exec (.loadFont x) s = .next t ∧ t.i.toNat = 5 * (s.reg x).toNat ∧ t.pc = s.pc + 2 ∧ keptExcept [.i, .pc] s t)

/-- R173 (the spec's decision D6): LD B, Vx stores the hundreds, tens and ones of Vx at I, I + 1 and I + 2 and no other
byte, I unchanged; where I + 2 is above 0x0FFF it is MEMORY_OUT_OF_RANGE and nothing is written. -/
def Obligations.StoreBCDWritesThreeDigits : Prop :=
  ∀ (x : Reg) (s : State), Memory.wf s.cfg.font s.mem = true →
    (s.i.toNat + 2 ≤ 0x0FFF → ∃ t, exec (.storeBCD x) s = .next t ∧
      (t.byteAt s.i.toNat).toNat = (s.reg x).toNat / 100 ∧
      (t.byteAt (s.i.toNat + 1)).toNat = (s.reg x).toNat / 10 % 10 ∧
      (t.byteAt (s.i.toNat + 2)).toNat = (s.reg x).toNat % 10 ∧
      (∀ a, (a < s.i.toNat ∨ s.i.toNat + 2 < a) → t.byteAt a = s.byteAt a) ∧ t.pc = s.pc + 2 ∧ keptExcept [.mem, .pc] s t) ∧
    (0x0FFF < s.i.toNat + 2 → exec (.storeBCD x) s =
      .next { s with fault := some { cause := .memoryOutOfRange, pc := s.pc, word := some (BitVec.ofNat 16 (0xF033 + 256 * x.val)) } })

/-- R174 (its fault is the spec's decision D6): LD [I], Vx stores V[0] to V[x] at I upward and no other byte, and I goes up by x + 1; where I + x is above
0x0FFF it is MEMORY_OUT_OF_RANGE, with no byte written and I unchanged. -/
def Obligations.StoreRegsCopiesUpToX : Prop :=
  ∀ (x : Reg) (s : State), Memory.wf s.cfg.font s.mem = true →
    decode (BitVec.ofNat 16 (0xF055 + 256 * x.val)) = .storeRegs x ∧
    (s.i.toNat + x.val ≤ 0x0FFF → ∃ t, exec (.storeRegs x) s = .next t ∧
      (∀ k : Reg, k.val ≤ x.val → t.byteAt (s.i.toNat + k.val) = s.reg k) ∧
      (∀ a, (a < s.i.toNat ∨ s.i.toNat + x.val < a) → t.byteAt a = s.byteAt a) ∧
      t.i.toNat = s.i.toNat + x.val + 1 ∧ t.pc = s.pc + 2 ∧ keptExcept [.mem, .i, .pc] s t) ∧
    (0x0FFF < s.i.toNat + x.val → exec (.storeRegs x) s =
      .next { s with fault := some { cause := .memoryOutOfRange, pc := s.pc, word := some (BitVec.ofNat 16 (0xF055 + 256 * x.val)) } })

/-- R175 (its fault is the spec's decision D6): LD Vx, [I] loads V[0] to V[x] from I upward and no other register, and I goes up by x + 1; where I + x is
above 0x0FFF it is MEMORY_OUT_OF_RANGE, with no register written and I unchanged. -/
def Obligations.LoadRegsCopiesUpToX : Prop :=
  ∀ (x : Reg) (s : State),
    decode (BitVec.ofNat 16 (0xF065 + 256 * x.val)) = .loadRegs x ∧
    (s.i.toNat + x.val ≤ 0x0FFF → ∃ t, exec (.loadRegs x) s = .next t ∧
      (∀ k : Reg, k.val ≤ x.val → t.reg k = s.byteAt (s.i.toNat + k.val)) ∧
      (∀ k : Reg, x.val < k.val → t.reg k = s.reg k) ∧
      t.i.toNat = s.i.toNat + x.val + 1 ∧ t.pc = s.pc + 2 ∧ keptExcept [.v, .i, .pc] s t) ∧
    (0x0FFF < s.i.toNat + x.val → exec (.loadRegs x) s =
      .next { s with fault := some { cause := .memoryOutOfRange, pc := s.pc, word := some (BitVec.ofNat 16 (0xF065 + 256 * x.val)) } })

/-- R52, R53, R54 and R57 (R54 is the spec's decision D6, R57 is marked [derived]): a block read or write is the sequence
of single-byte accesses at consecutive addresses, each with its own range check. -/
def Obligations.BlocksAreSequencesOfBytes : Prop :=
  (∀ (s : State) (a n : Nat), readBlock s a n = (List.range n).mapM fun k => memRead s (a + k)) ∧
  (∀ (s : State) (a : Nat) (us : List Byte),
    writeBlock s a us = us.zipIdx.foldlM (fun t p => memWrite t (a + p.2) p.1) s)

/-! ## Display -/

/-- R195 with R191: CLS, from any state (so after any DRW, R203), sets every pixel to 0 and changes nothing else but pc;
VF is not written. -/
def Obligations.ClearScreenClearsEveryPixel : Prop :=
  ∀ s : State,
    decode 0x00E0 = .clearScreen ∧
    ∃ t, exec .clearScreen s = .next t ∧ (∀ x y, Display.pixel t.display x y = false) ∧ t.pc = s.pc + 2 ∧
      keptExcept [.display, .pc] s t

/-- R192: `toggle_pixel` flips the pixel at the coordinates modulo 64 and 32, no other, and reports whether it was lit before. -/
def Obligations.TogglePixelFlipsTheWrappedPixel : Prop :=
  ∀ (d : Display) (px py : Nat) (x : Fin 64) (y : Fin 32),
    (x.val = px % 64 → y.val = py % 32 →
      Display.pixel (Display.togglePixel d px py).1 x y = !Display.pixel d x y ∧
      (Display.togglePixel d px py).2 = Display.pixel d x y) ∧
    (¬ (x.val = px % 64 ∧ y.val = py % 32) →
      Display.pixel (Display.togglePixel d px py).1 x y = Display.pixel d x y)

/-- R193 (the spec marks it [derived]): toggling twice at the same coordinates restores the whole display, and the second
call reports the opposite of the first. -/
def Obligations.TogglePixelIsAnInvolution : Prop :=
  ∀ (d : Display) (px py : Nat),
    (Display.togglePixel (Display.togglePixel d px py).1 px py).1 = d ∧
    (Display.togglePixel (Display.togglePixel d px py).1 px py).2 = !(Display.togglePixel d px py).2

/-- R196 to R202 (R198 to R201 are marked [derived], R196 and R202 rest on decision D16 and the range fault on D6, the
bit order is marked as general knowledge): DRW with its sprite inside memory XORs the sprite into the display, every
pixel at its wrapped place, and VF is 1 exactly when a covered pixel was lit; with n = 0 that is no pixel, VF = 0 and no
fault, whatever I holds. The coordinates are those of the state before, VF's old value among them when x or y is 15. No
other register and no byte of memory changes. With a row above 0x0FFF it is MEMORY_OUT_OF_RANGE: display, VF and pc stay. -/
def Obligations.DrawXorsTheSprite : Prop :=
  ∀ (x y : Reg) (n : Rows) (s : State),
    (¬ (0 < n.val ∧ 0x0FFF < s.i.toNat + n.val - 1) → ∃ t, exec (.draw x y n) s = .next t ∧
      (∀ px py, Display.pixel t.display px py = true ↔
        (Display.pixel s.display px py = true ↔ ¬ spriteCovers s (s.reg x).toNat (s.reg y).toNat n.val px py)) ∧
      (t.reg vf = 0 ∨ t.reg vf = 1) ∧
      (t.reg vf = 1 ↔ ∃ px py, spriteCovers s (s.reg x).toNat (s.reg y).toNat n.val px py ∧ Display.pixel s.display px py = true) ∧
      (∀ r, r ≠ vf → t.reg r = s.reg r) ∧ t.pc = s.pc + 2 ∧ keptExcept [.display, .v, .pc] s t) ∧
    (0 < n.val → 0x0FFF < s.i.toNat + n.val - 1 → exec (.draw x y n) s =
      .next { s with fault := some { cause := .memoryOutOfRange, pc := s.pc, word := some (BitVec.ofNat 16 (0xD000 + 256 * x.val + 16 * y.val + n.val)) } })

/-- R200 (the spec marks it [derived]): the same sprite drawn twice at the same place restores the display. -/
def Obligations.DrawTwiceRestoresTheDisplay : Prop :=
  ∀ (x y : Reg) (n : Rows) (s t u : State), x ≠ vf → y ≠ vf → faultOf (.draw x y n) s = none →
    exec (.draw x y n) s = .next t → exec (.draw x y n) t = .next u → u.display = s.display

/-! ## Keys, timers and the host -/

/-- R210 and R211 (the spec's decision D19): SKP and SKNP test the key V[x] names and change nothing but pc; above 0x0F
they are KEY_INDEX_OUT_OF_RANGE. -/
def Obligations.SkipsOnAKey : Prop :=
  ∀ (x : Reg) (s : State),
    (∀ k : Key, (s.reg x).toNat = k.val →
      exec (.skipIfKeyDown x) s = .next { s with pc := if s.key[k] = true then s.pc + 4 else s.pc + 2 } ∧
      exec (.skipIfKeyUp x) s = .next { s with pc := if s.key[k] = false then s.pc + 4 else s.pc + 2 }) ∧
    (0x0F < (s.reg x).toNat →
      exec (.skipIfKeyDown x) s = .next { s with fault := some { cause := .keyIndexOutOfRange, pc := s.pc, word := some (BitVec.ofNat 16 (0xE09E + 256 * x.val)) } } ∧
      exec (.skipIfKeyUp x) s = .next { s with fault := some { cause := .keyIndexOutOfRange, pc := s.pc, word := some (BitVec.ofNat 16 (0xE0A1 + 256 * x.val)) } })

/-- R212, R214 and R215 (marked by the spec as general knowledge): LD Vx, DT; LD DT, Vx; LD ST, Vx. -/
def Obligations.TimerTransfers : Prop :=
  ∀ (x : Reg) (s : State),
    (decode (BitVec.ofNat 16 (0xF007 + 256 * x.val)) = .loadDelay x ∧
      ∃ t, exec (.loadDelay x) s = .next t ∧ t.reg x = s.dt ∧ (∀ r, r ≠ x → t.reg r = s.reg r) ∧ t.pc = s.pc + 2 ∧
        keptExcept [.v, .pc] s t) ∧
    (decode (BitVec.ofNat 16 (0xF015 + 256 * x.val)) = .setDelay x ∧
      ∃ t, exec (.setDelay x) s = .next t ∧ t.dt = s.reg x ∧ t.pc = s.pc + 2 ∧ keptExcept [.dt, .pc] s t) ∧
    (decode (BitVec.ofNat 16 (0xF018 + 256 * x.val)) = .setSound x ∧
      ∃ t, exec (.setSound x) s = .next t ∧ t.st = s.reg x ∧ t.pc = s.pc + 2 ∧ keptExcept [.st, .pc] s t)

/-- R213 (the spec's decision D18): LD Vx, K with no key latched changes nothing at all; with key k latched it stores k
in V[x], empties the latch and advances. -/
def Obligations.WaitKeyConsumesTheLatch : Prop :=
  ∀ (x : Reg) (s : State),
    (s.lk = none → exec (.waitKey x) s = .next s) ∧
    (∀ k : Key, s.lk = some k → ∃ t, exec (.waitKey x) s = .next t ∧ (t.reg x).toNat = k.val ∧ t.lk = none ∧
      (∀ r, r ≠ x → t.reg r = s.reg r) ∧ t.pc = s.pc + 2 ∧ keptExcept [.v, .lk, .pc] s t)

/-- R218 (the spec marks it [derived]), for any number of waiting steps: LD Vx, K with no key latched holds pc, the
latch and the registers through n steps, and after a key press the next step stores the key and advances. -/
def Obligations.KeyWaitHoldsUntilAPress : Prop :=
  ∀ (n : Nat) (x : Reg) (s : State), s.fault = none → s.pc.toNat ≤ 0x0FFE → s.lk = none →
    s.fetchWord = BitVec.ofNat 16 (0xF00A + 256 * x.val) →
    ∃ t, Host.Core.run core n s = .next t ∧ t.pc = s.pc ∧ t.lk = none ∧ (∀ r, t.reg r = s.reg r) ∧
      ∀ k : Key, ∃ u, step (t.setKey k true) = .next u ∧ u.pc = s.pc + 2 ∧ (u.reg x).toNat = k.val ∧ u.lk = none

/-- R250 and R217 (the spec's decision D18): a press marks the key down and latches it, a release marks it up and leaves
the latch, and neither touches anything else. -/
def Obligations.SetKeyWritesKeyAndLatch : Prop :=
  ∀ (s : State) (k : Key) (pressed : Bool),
    (∀ j, (s.setKey k pressed).keyDown j = if j = k then pressed else s.keyDown j) ∧
    (s.setKey k pressed).lk = (if pressed = true then some k else s.lk) ∧
    keptExcept [.key, .lk] s (s.setKey k pressed)

/-- R294 (the spec's decision D30): a load of at most 0xE00 bytes puts the image at 0x200 and changes no other byte and
nothing else; a longer image is rejected whole. -/
def Obligations.LoadPlacesTheImage : Prop :=
  ∀ (s : State) (image : List Byte), Memory.wf s.cfg.font s.mem = true →
    (image.length ≤ 0xE00 →
      (∀ k (h : k < image.length), (s.load image).byteAt (0x200 + k) = image[k]) ∧
      (∀ a, (a < 0x200 ∨ 0x200 + image.length ≤ a) → (s.load image).byteAt a = s.byteAt a) ∧
      keptExcept [.mem] s (s.load image)) ∧
    (0xE00 < image.length → s.load image = s)

/-- R290 and R265 (the spec's decisions D1 to D4, D24, D29, D40): reset as a host action gives every element its reset
value under the same parameters, and it is the only action that clears FAULT. -/
def Obligations.OnlyResetClearsAFault : Prop :=
  (∀ s : State, keptExcept [.rnd] (State.resetWith s.cfg) s.resetAction) ∧
  (∀ (a : HostAction) (s t : State), s.fault ≠ none → a ≠ .reset → perform a s = .next t → t.fault = s.fault)
end

