-- ==== Sys2Proof/Laws/State.lean ====
section
/-! SUPPORT. One lemma per field per update of `State`, so that no proof unfolds a record update. -/

namespace Sys2Proof.Machine

/-! ### `setByte` -/

@[simp] theorem State.setByte_mem (s : State) (a : Nat) (u : Byte) : (s.setByte a u).mem = Memory.write s.cfg.font s.mem a u := rfl
@[simp] theorem State.setByte_v (s : State) (a : Nat) (u : Byte) : (s.setByte a u).v = s.v := rfl
@[simp] theorem State.setByte_i (s : State) (a : Nat) (u : Byte) : (s.setByte a u).i = s.i := rfl
@[simp] theorem State.setByte_pc (s : State) (a : Nat) (u : Byte) : (s.setByte a u).pc = s.pc := rfl
@[simp] theorem State.setByte_stack (s : State) (a : Nat) (u : Byte) : (s.setByte a u).stack = s.stack := rfl
@[simp] theorem State.setByte_sp (s : State) (a : Nat) (u : Byte) : (s.setByte a u).sp = s.sp := rfl
@[simp] theorem State.setByte_dt (s : State) (a : Nat) (u : Byte) : (s.setByte a u).dt = s.dt := rfl
@[simp] theorem State.setByte_st (s : State) (a : Nat) (u : Byte) : (s.setByte a u).st = s.st := rfl
@[simp] theorem State.setByte_key (s : State) (a : Nat) (u : Byte) : (s.setByte a u).key = s.key := rfl
@[simp] theorem State.setByte_lk (s : State) (a : Nat) (u : Byte) : (s.setByte a u).lk = s.lk := rfl
@[simp] theorem State.setByte_acc (s : State) (a : Nat) (u : Byte) : (s.setByte a u).acc = s.acc := rfl
@[simp] theorem State.setByte_display (s : State) (a : Nat) (u : Byte) : (s.setByte a u).display = s.display := rfl
@[simp] theorem State.setByte_fault (s : State) (a : Nat) (u : Byte) : (s.setByte a u).fault = s.fault := rfl
@[simp] theorem State.setByte_cfg (s : State) (a : Nat) (u : Byte) : (s.setByte a u).cfg = s.cfg := rfl
@[simp] theorem State.setByte_rndQueue (s : State) (a : Nat) (u : Byte) : (s.setByte a u).rndQueue = s.rndQueue := rfl
@[simp] theorem State.setByte_draws (s : State) (a : Nat) (u : Byte) : (s.setByte a u).draws = s.draws := rfl

/-! ### `setReg` -/

@[simp] theorem State.setReg_mem (s : State) (x : Reg) (u : Byte) : (s.setReg x u).mem = s.mem := rfl
@[simp] theorem State.setReg_v (s : State) (x : Reg) (u : Byte) : (s.setReg x u).v = s.v.set x u := rfl
@[simp] theorem State.setReg_i (s : State) (x : Reg) (u : Byte) : (s.setReg x u).i = s.i := rfl
@[simp] theorem State.setReg_pc (s : State) (x : Reg) (u : Byte) : (s.setReg x u).pc = s.pc := rfl
@[simp] theorem State.setReg_stack (s : State) (x : Reg) (u : Byte) : (s.setReg x u).stack = s.stack := rfl
@[simp] theorem State.setReg_sp (s : State) (x : Reg) (u : Byte) : (s.setReg x u).sp = s.sp := rfl
@[simp] theorem State.setReg_dt (s : State) (x : Reg) (u : Byte) : (s.setReg x u).dt = s.dt := rfl
@[simp] theorem State.setReg_st (s : State) (x : Reg) (u : Byte) : (s.setReg x u).st = s.st := rfl
@[simp] theorem State.setReg_key (s : State) (x : Reg) (u : Byte) : (s.setReg x u).key = s.key := rfl
@[simp] theorem State.setReg_lk (s : State) (x : Reg) (u : Byte) : (s.setReg x u).lk = s.lk := rfl
@[simp] theorem State.setReg_acc (s : State) (x : Reg) (u : Byte) : (s.setReg x u).acc = s.acc := rfl
@[simp] theorem State.setReg_display (s : State) (x : Reg) (u : Byte) : (s.setReg x u).display = s.display := rfl
@[simp] theorem State.setReg_fault (s : State) (x : Reg) (u : Byte) : (s.setReg x u).fault = s.fault := rfl
@[simp] theorem State.setReg_cfg (s : State) (x : Reg) (u : Byte) : (s.setReg x u).cfg = s.cfg := rfl
@[simp] theorem State.setReg_rndQueue (s : State) (x : Reg) (u : Byte) : (s.setReg x u).rndQueue = s.rndQueue := rfl
@[simp] theorem State.setReg_draws (s : State) (x : Reg) (u : Byte) : (s.setReg x u).draws = s.draws := rfl

/-! ### `setRegsFrom0` -/

@[simp] theorem State.setRegsFrom0_mem (s : State) (us : List Byte) : (s.setRegsFrom0 us).mem = s.mem := rfl
@[simp] theorem State.setRegsFrom0_v (s : State) (us : List Byte) : (s.setRegsFrom0 us).v = Vector.ofFn fun k => us.getD k.val s.v[k] := rfl
@[simp] theorem State.setRegsFrom0_i (s : State) (us : List Byte) : (s.setRegsFrom0 us).i = s.i := rfl
@[simp] theorem State.setRegsFrom0_pc (s : State) (us : List Byte) : (s.setRegsFrom0 us).pc = s.pc := rfl
@[simp] theorem State.setRegsFrom0_stack (s : State) (us : List Byte) : (s.setRegsFrom0 us).stack = s.stack := rfl
@[simp] theorem State.setRegsFrom0_sp (s : State) (us : List Byte) : (s.setRegsFrom0 us).sp = s.sp := rfl
@[simp] theorem State.setRegsFrom0_dt (s : State) (us : List Byte) : (s.setRegsFrom0 us).dt = s.dt := rfl
@[simp] theorem State.setRegsFrom0_st (s : State) (us : List Byte) : (s.setRegsFrom0 us).st = s.st := rfl
@[simp] theorem State.setRegsFrom0_key (s : State) (us : List Byte) : (s.setRegsFrom0 us).key = s.key := rfl
@[simp] theorem State.setRegsFrom0_lk (s : State) (us : List Byte) : (s.setRegsFrom0 us).lk = s.lk := rfl
@[simp] theorem State.setRegsFrom0_acc (s : State) (us : List Byte) : (s.setRegsFrom0 us).acc = s.acc := rfl
@[simp] theorem State.setRegsFrom0_display (s : State) (us : List Byte) : (s.setRegsFrom0 us).display = s.display := rfl
@[simp] theorem State.setRegsFrom0_fault (s : State) (us : List Byte) : (s.setRegsFrom0 us).fault = s.fault := rfl
@[simp] theorem State.setRegsFrom0_cfg (s : State) (us : List Byte) : (s.setRegsFrom0 us).cfg = s.cfg := rfl
@[simp] theorem State.setRegsFrom0_rndQueue (s : State) (us : List Byte) : (s.setRegsFrom0 us).rndQueue = s.rndQueue := rfl
@[simp] theorem State.setRegsFrom0_draws (s : State) (us : List Byte) : (s.setRegsFrom0 us).draws = s.draws := rfl

/-! ### `setIndex` -/

@[simp] theorem State.setIndex_mem (s : State) (a : Word) : (s.setIndex a).mem = s.mem := rfl
@[simp] theorem State.setIndex_v (s : State) (a : Word) : (s.setIndex a).v = s.v := rfl
@[simp] theorem State.setIndex_i (s : State) (a : Word) : (s.setIndex a).i = a := rfl
@[simp] theorem State.setIndex_pc (s : State) (a : Word) : (s.setIndex a).pc = s.pc := rfl
@[simp] theorem State.setIndex_stack (s : State) (a : Word) : (s.setIndex a).stack = s.stack := rfl
@[simp] theorem State.setIndex_sp (s : State) (a : Word) : (s.setIndex a).sp = s.sp := rfl
@[simp] theorem State.setIndex_dt (s : State) (a : Word) : (s.setIndex a).dt = s.dt := rfl
@[simp] theorem State.setIndex_st (s : State) (a : Word) : (s.setIndex a).st = s.st := rfl
@[simp] theorem State.setIndex_key (s : State) (a : Word) : (s.setIndex a).key = s.key := rfl
@[simp] theorem State.setIndex_lk (s : State) (a : Word) : (s.setIndex a).lk = s.lk := rfl
@[simp] theorem State.setIndex_acc (s : State) (a : Word) : (s.setIndex a).acc = s.acc := rfl
@[simp] theorem State.setIndex_display (s : State) (a : Word) : (s.setIndex a).display = s.display := rfl
@[simp] theorem State.setIndex_fault (s : State) (a : Word) : (s.setIndex a).fault = s.fault := rfl
@[simp] theorem State.setIndex_cfg (s : State) (a : Word) : (s.setIndex a).cfg = s.cfg := rfl
@[simp] theorem State.setIndex_rndQueue (s : State) (a : Word) : (s.setIndex a).rndQueue = s.rndQueue := rfl
@[simp] theorem State.setIndex_draws (s : State) (a : Word) : (s.setIndex a).draws = s.draws := rfl

/-! ### `setPc` -/

@[simp] theorem State.setPc_mem (s : State) (a : Word) : (s.setPc a).mem = s.mem := rfl
@[simp] theorem State.setPc_v (s : State) (a : Word) : (s.setPc a).v = s.v := rfl
@[simp] theorem State.setPc_i (s : State) (a : Word) : (s.setPc a).i = s.i := rfl
@[simp] theorem State.setPc_pc (s : State) (a : Word) : (s.setPc a).pc = a := rfl
@[simp] theorem State.setPc_stack (s : State) (a : Word) : (s.setPc a).stack = s.stack := rfl
@[simp] theorem State.setPc_sp (s : State) (a : Word) : (s.setPc a).sp = s.sp := rfl
@[simp] theorem State.setPc_dt (s : State) (a : Word) : (s.setPc a).dt = s.dt := rfl
@[simp] theorem State.setPc_st (s : State) (a : Word) : (s.setPc a).st = s.st := rfl
@[simp] theorem State.setPc_key (s : State) (a : Word) : (s.setPc a).key = s.key := rfl
@[simp] theorem State.setPc_lk (s : State) (a : Word) : (s.setPc a).lk = s.lk := rfl
@[simp] theorem State.setPc_acc (s : State) (a : Word) : (s.setPc a).acc = s.acc := rfl
@[simp] theorem State.setPc_display (s : State) (a : Word) : (s.setPc a).display = s.display := rfl
@[simp] theorem State.setPc_fault (s : State) (a : Word) : (s.setPc a).fault = s.fault := rfl
@[simp] theorem State.setPc_cfg (s : State) (a : Word) : (s.setPc a).cfg = s.cfg := rfl
@[simp] theorem State.setPc_rndQueue (s : State) (a : Word) : (s.setPc a).rndQueue = s.rndQueue := rfl
@[simp] theorem State.setPc_draws (s : State) (a : Word) : (s.setPc a).draws = s.draws := rfl

/-! ### `advance` -/

@[simp] theorem State.advance_mem (s : State) : (s.advance).mem = s.mem := rfl
@[simp] theorem State.advance_v (s : State) : (s.advance).v = s.v := rfl
@[simp] theorem State.advance_i (s : State) : (s.advance).i = s.i := rfl
@[simp] theorem State.advance_pc (s : State) : (s.advance).pc = s.pc + 2 := rfl
@[simp] theorem State.advance_stack (s : State) : (s.advance).stack = s.stack := rfl
@[simp] theorem State.advance_sp (s : State) : (s.advance).sp = s.sp := rfl
@[simp] theorem State.advance_dt (s : State) : (s.advance).dt = s.dt := rfl
@[simp] theorem State.advance_st (s : State) : (s.advance).st = s.st := rfl
@[simp] theorem State.advance_key (s : State) : (s.advance).key = s.key := rfl
@[simp] theorem State.advance_lk (s : State) : (s.advance).lk = s.lk := rfl
@[simp] theorem State.advance_acc (s : State) : (s.advance).acc = s.acc := rfl
@[simp] theorem State.advance_display (s : State) : (s.advance).display = s.display := rfl
@[simp] theorem State.advance_fault (s : State) : (s.advance).fault = s.fault := rfl
@[simp] theorem State.advance_cfg (s : State) : (s.advance).cfg = s.cfg := rfl
@[simp] theorem State.advance_rndQueue (s : State) : (s.advance).rndQueue = s.rndQueue := rfl
@[simp] theorem State.advance_draws (s : State) : (s.advance).draws = s.draws := rfl

/-! ### `skipIf` -/

@[simp] theorem State.skipIf_mem (s : State) (c : Bool) : (s.skipIf c).mem = s.mem := rfl
@[simp] theorem State.skipIf_v (s : State) (c : Bool) : (s.skipIf c).v = s.v := rfl
@[simp] theorem State.skipIf_i (s : State) (c : Bool) : (s.skipIf c).i = s.i := rfl
@[simp] theorem State.skipIf_pc (s : State) (c : Bool) : (s.skipIf c).pc = if c then s.pc + 4 else s.pc + 2 := rfl
@[simp] theorem State.skipIf_stack (s : State) (c : Bool) : (s.skipIf c).stack = s.stack := rfl
@[simp] theorem State.skipIf_sp (s : State) (c : Bool) : (s.skipIf c).sp = s.sp := rfl
@[simp] theorem State.skipIf_dt (s : State) (c : Bool) : (s.skipIf c).dt = s.dt := rfl
@[simp] theorem State.skipIf_st (s : State) (c : Bool) : (s.skipIf c).st = s.st := rfl
@[simp] theorem State.skipIf_key (s : State) (c : Bool) : (s.skipIf c).key = s.key := rfl
@[simp] theorem State.skipIf_lk (s : State) (c : Bool) : (s.skipIf c).lk = s.lk := rfl
@[simp] theorem State.skipIf_acc (s : State) (c : Bool) : (s.skipIf c).acc = s.acc := rfl
@[simp] theorem State.skipIf_display (s : State) (c : Bool) : (s.skipIf c).display = s.display := rfl
@[simp] theorem State.skipIf_fault (s : State) (c : Bool) : (s.skipIf c).fault = s.fault := rfl
@[simp] theorem State.skipIf_cfg (s : State) (c : Bool) : (s.skipIf c).cfg = s.cfg := rfl
@[simp] theorem State.skipIf_rndQueue (s : State) (c : Bool) : (s.skipIf c).rndQueue = s.rndQueue := rfl
@[simp] theorem State.skipIf_draws (s : State) (c : Bool) : (s.skipIf c).draws = s.draws := rfl

/-! ### `setDT` -/

@[simp] theorem State.setDT_mem (s : State) (u : Byte) : (s.setDT u).mem = s.mem := rfl
@[simp] theorem State.setDT_v (s : State) (u : Byte) : (s.setDT u).v = s.v := rfl
@[simp] theorem State.setDT_i (s : State) (u : Byte) : (s.setDT u).i = s.i := rfl
@[simp] theorem State.setDT_pc (s : State) (u : Byte) : (s.setDT u).pc = s.pc := rfl
@[simp] theorem State.setDT_stack (s : State) (u : Byte) : (s.setDT u).stack = s.stack := rfl
@[simp] theorem State.setDT_sp (s : State) (u : Byte) : (s.setDT u).sp = s.sp := rfl
@[simp] theorem State.setDT_dt (s : State) (u : Byte) : (s.setDT u).dt = u := rfl
@[simp] theorem State.setDT_st (s : State) (u : Byte) : (s.setDT u).st = s.st := rfl
@[simp] theorem State.setDT_key (s : State) (u : Byte) : (s.setDT u).key = s.key := rfl
@[simp] theorem State.setDT_lk (s : State) (u : Byte) : (s.setDT u).lk = s.lk := rfl
@[simp] theorem State.setDT_acc (s : State) (u : Byte) : (s.setDT u).acc = s.acc := rfl
@[simp] theorem State.setDT_display (s : State) (u : Byte) : (s.setDT u).display = s.display := rfl
@[simp] theorem State.setDT_fault (s : State) (u : Byte) : (s.setDT u).fault = s.fault := rfl
@[simp] theorem State.setDT_cfg (s : State) (u : Byte) : (s.setDT u).cfg = s.cfg := rfl
@[simp] theorem State.setDT_rndQueue (s : State) (u : Byte) : (s.setDT u).rndQueue = s.rndQueue := rfl
@[simp] theorem State.setDT_draws (s : State) (u : Byte) : (s.setDT u).draws = s.draws := rfl

/-! ### `setST` -/

@[simp] theorem State.setST_mem (s : State) (u : Byte) : (s.setST u).mem = s.mem := rfl
@[simp] theorem State.setST_v (s : State) (u : Byte) : (s.setST u).v = s.v := rfl
@[simp] theorem State.setST_i (s : State) (u : Byte) : (s.setST u).i = s.i := rfl
@[simp] theorem State.setST_pc (s : State) (u : Byte) : (s.setST u).pc = s.pc := rfl
@[simp] theorem State.setST_stack (s : State) (u : Byte) : (s.setST u).stack = s.stack := rfl
@[simp] theorem State.setST_sp (s : State) (u : Byte) : (s.setST u).sp = s.sp := rfl
@[simp] theorem State.setST_dt (s : State) (u : Byte) : (s.setST u).dt = s.dt := rfl
@[simp] theorem State.setST_st (s : State) (u : Byte) : (s.setST u).st = u := rfl
@[simp] theorem State.setST_key (s : State) (u : Byte) : (s.setST u).key = s.key := rfl
@[simp] theorem State.setST_lk (s : State) (u : Byte) : (s.setST u).lk = s.lk := rfl
@[simp] theorem State.setST_acc (s : State) (u : Byte) : (s.setST u).acc = s.acc := rfl
@[simp] theorem State.setST_display (s : State) (u : Byte) : (s.setST u).display = s.display := rfl
@[simp] theorem State.setST_fault (s : State) (u : Byte) : (s.setST u).fault = s.fault := rfl
@[simp] theorem State.setST_cfg (s : State) (u : Byte) : (s.setST u).cfg = s.cfg := rfl
@[simp] theorem State.setST_rndQueue (s : State) (u : Byte) : (s.setST u).rndQueue = s.rndQueue := rfl
@[simp] theorem State.setST_draws (s : State) (u : Byte) : (s.setST u).draws = s.draws := rfl

/-! ### `setLK` -/

@[simp] theorem State.setLK_mem (s : State) (k : Option Key) : (s.setLK k).mem = s.mem := rfl
@[simp] theorem State.setLK_v (s : State) (k : Option Key) : (s.setLK k).v = s.v := rfl
@[simp] theorem State.setLK_i (s : State) (k : Option Key) : (s.setLK k).i = s.i := rfl
@[simp] theorem State.setLK_pc (s : State) (k : Option Key) : (s.setLK k).pc = s.pc := rfl
@[simp] theorem State.setLK_stack (s : State) (k : Option Key) : (s.setLK k).stack = s.stack := rfl
@[simp] theorem State.setLK_sp (s : State) (k : Option Key) : (s.setLK k).sp = s.sp := rfl
@[simp] theorem State.setLK_dt (s : State) (k : Option Key) : (s.setLK k).dt = s.dt := rfl
@[simp] theorem State.setLK_st (s : State) (k : Option Key) : (s.setLK k).st = s.st := rfl
@[simp] theorem State.setLK_key (s : State) (k : Option Key) : (s.setLK k).key = s.key := rfl
@[simp] theorem State.setLK_lk (s : State) (k : Option Key) : (s.setLK k).lk = k := rfl
@[simp] theorem State.setLK_acc (s : State) (k : Option Key) : (s.setLK k).acc = s.acc := rfl
@[simp] theorem State.setLK_display (s : State) (k : Option Key) : (s.setLK k).display = s.display := rfl
@[simp] theorem State.setLK_fault (s : State) (k : Option Key) : (s.setLK k).fault = s.fault := rfl
@[simp] theorem State.setLK_cfg (s : State) (k : Option Key) : (s.setLK k).cfg = s.cfg := rfl
@[simp] theorem State.setLK_rndQueue (s : State) (k : Option Key) : (s.setLK k).rndQueue = s.rndQueue := rfl
@[simp] theorem State.setLK_draws (s : State) (k : Option Key) : (s.setLK k).draws = s.draws := rfl

/-! ### `setDisplay` -/

@[simp] theorem State.setDisplay_mem (s : State) (d : Display) : (s.setDisplay d).mem = s.mem := rfl
@[simp] theorem State.setDisplay_v (s : State) (d : Display) : (s.setDisplay d).v = s.v := rfl
@[simp] theorem State.setDisplay_i (s : State) (d : Display) : (s.setDisplay d).i = s.i := rfl
@[simp] theorem State.setDisplay_pc (s : State) (d : Display) : (s.setDisplay d).pc = s.pc := rfl
@[simp] theorem State.setDisplay_stack (s : State) (d : Display) : (s.setDisplay d).stack = s.stack := rfl
@[simp] theorem State.setDisplay_sp (s : State) (d : Display) : (s.setDisplay d).sp = s.sp := rfl
@[simp] theorem State.setDisplay_dt (s : State) (d : Display) : (s.setDisplay d).dt = s.dt := rfl
@[simp] theorem State.setDisplay_st (s : State) (d : Display) : (s.setDisplay d).st = s.st := rfl
@[simp] theorem State.setDisplay_key (s : State) (d : Display) : (s.setDisplay d).key = s.key := rfl
@[simp] theorem State.setDisplay_lk (s : State) (d : Display) : (s.setDisplay d).lk = s.lk := rfl
@[simp] theorem State.setDisplay_acc (s : State) (d : Display) : (s.setDisplay d).acc = s.acc := rfl
@[simp] theorem State.setDisplay_display (s : State) (d : Display) : (s.setDisplay d).display = d := rfl
@[simp] theorem State.setDisplay_fault (s : State) (d : Display) : (s.setDisplay d).fault = s.fault := rfl
@[simp] theorem State.setDisplay_cfg (s : State) (d : Display) : (s.setDisplay d).cfg = s.cfg := rfl
@[simp] theorem State.setDisplay_rndQueue (s : State) (d : Display) : (s.setDisplay d).rndQueue = s.rndQueue := rfl
@[simp] theorem State.setDisplay_draws (s : State) (d : Display) : (s.setDisplay d).draws = s.draws := rfl

/-! ### `setFlag` -/

@[simp] theorem State.setFlag_mem (s : State) (c : Bool) : (s.setFlag c).mem = s.mem := rfl
@[simp] theorem State.setFlag_v (s : State) (c : Bool) : (s.setFlag c).v = s.v.set vf (flagByte c) := rfl
@[simp] theorem State.setFlag_i (s : State) (c : Bool) : (s.setFlag c).i = s.i := rfl
@[simp] theorem State.setFlag_pc (s : State) (c : Bool) : (s.setFlag c).pc = s.pc := rfl
@[simp] theorem State.setFlag_stack (s : State) (c : Bool) : (s.setFlag c).stack = s.stack := rfl
@[simp] theorem State.setFlag_sp (s : State) (c : Bool) : (s.setFlag c).sp = s.sp := rfl
@[simp] theorem State.setFlag_dt (s : State) (c : Bool) : (s.setFlag c).dt = s.dt := rfl
@[simp] theorem State.setFlag_st (s : State) (c : Bool) : (s.setFlag c).st = s.st := rfl
@[simp] theorem State.setFlag_key (s : State) (c : Bool) : (s.setFlag c).key = s.key := rfl
@[simp] theorem State.setFlag_lk (s : State) (c : Bool) : (s.setFlag c).lk = s.lk := rfl
@[simp] theorem State.setFlag_acc (s : State) (c : Bool) : (s.setFlag c).acc = s.acc := rfl
@[simp] theorem State.setFlag_display (s : State) (c : Bool) : (s.setFlag c).display = s.display := rfl
@[simp] theorem State.setFlag_fault (s : State) (c : Bool) : (s.setFlag c).fault = s.fault := rfl
@[simp] theorem State.setFlag_cfg (s : State) (c : Bool) : (s.setFlag c).cfg = s.cfg := rfl
@[simp] theorem State.setFlag_rndQueue (s : State) (c : Bool) : (s.setFlag c).rndQueue = s.rndQueue := rfl
@[simp] theorem State.setFlag_draws (s : State) (c : Bool) : (s.setFlag c).draws = s.draws := rfl

/-! ### `setResultAndFlag` -/

@[simp] theorem State.setResultAndFlag_mem (s : State) (x : Reg) (r : Byte) (c : Bool) : (s.setResultAndFlag x r c).mem = s.mem := rfl
@[simp] theorem State.setResultAndFlag_v (s : State) (x : Reg) (r : Byte) (c : Bool) : (s.setResultAndFlag x r c).v = (s.v.set x r).set vf (flagByte c) := rfl
@[simp] theorem State.setResultAndFlag_i (s : State) (x : Reg) (r : Byte) (c : Bool) : (s.setResultAndFlag x r c).i = s.i := rfl
@[simp] theorem State.setResultAndFlag_pc (s : State) (x : Reg) (r : Byte) (c : Bool) : (s.setResultAndFlag x r c).pc = s.pc := rfl
@[simp] theorem State.setResultAndFlag_stack (s : State) (x : Reg) (r : Byte) (c : Bool) : (s.setResultAndFlag x r c).stack = s.stack := rfl
@[simp] theorem State.setResultAndFlag_sp (s : State) (x : Reg) (r : Byte) (c : Bool) : (s.setResultAndFlag x r c).sp = s.sp := rfl
@[simp] theorem State.setResultAndFlag_dt (s : State) (x : Reg) (r : Byte) (c : Bool) : (s.setResultAndFlag x r c).dt = s.dt := rfl
@[simp] theorem State.setResultAndFlag_st (s : State) (x : Reg) (r : Byte) (c : Bool) : (s.setResultAndFlag x r c).st = s.st := rfl
@[simp] theorem State.setResultAndFlag_key (s : State) (x : Reg) (r : Byte) (c : Bool) : (s.setResultAndFlag x r c).key = s.key := rfl
@[simp] theorem State.setResultAndFlag_lk (s : State) (x : Reg) (r : Byte) (c : Bool) : (s.setResultAndFlag x r c).lk = s.lk := rfl
@[simp] theorem State.setResultAndFlag_acc (s : State) (x : Reg) (r : Byte) (c : Bool) : (s.setResultAndFlag x r c).acc = s.acc := rfl
@[simp] theorem State.setResultAndFlag_display (s : State) (x : Reg) (r : Byte) (c : Bool) : (s.setResultAndFlag x r c).display = s.display := rfl
@[simp] theorem State.setResultAndFlag_fault (s : State) (x : Reg) (r : Byte) (c : Bool) : (s.setResultAndFlag x r c).fault = s.fault := rfl
@[simp] theorem State.setResultAndFlag_cfg (s : State) (x : Reg) (r : Byte) (c : Bool) : (s.setResultAndFlag x r c).cfg = s.cfg := rfl
@[simp] theorem State.setResultAndFlag_rndQueue (s : State) (x : Reg) (r : Byte) (c : Bool) : (s.setResultAndFlag x r c).rndQueue = s.rndQueue := rfl
@[simp] theorem State.setResultAndFlag_draws (s : State) (x : Reg) (r : Byte) (c : Bool) : (s.setResultAndFlag x r c).draws = s.draws := rfl

/-! ### `takeFault` -/

@[simp] theorem takeFault_mem (s : State) (c : Fault) (w : Option Word) : (takeFault c w s).mem = s.mem := rfl
@[simp] theorem takeFault_v (s : State) (c : Fault) (w : Option Word) : (takeFault c w s).v = s.v := rfl
@[simp] theorem takeFault_i (s : State) (c : Fault) (w : Option Word) : (takeFault c w s).i = s.i := rfl
@[simp] theorem takeFault_pc (s : State) (c : Fault) (w : Option Word) : (takeFault c w s).pc = s.pc := rfl
@[simp] theorem takeFault_stack (s : State) (c : Fault) (w : Option Word) : (takeFault c w s).stack = s.stack := rfl
@[simp] theorem takeFault_sp (s : State) (c : Fault) (w : Option Word) : (takeFault c w s).sp = s.sp := rfl
@[simp] theorem takeFault_dt (s : State) (c : Fault) (w : Option Word) : (takeFault c w s).dt = s.dt := rfl
@[simp] theorem takeFault_st (s : State) (c : Fault) (w : Option Word) : (takeFault c w s).st = s.st := rfl
@[simp] theorem takeFault_key (s : State) (c : Fault) (w : Option Word) : (takeFault c w s).key = s.key := rfl
@[simp] theorem takeFault_lk (s : State) (c : Fault) (w : Option Word) : (takeFault c w s).lk = s.lk := rfl
@[simp] theorem takeFault_acc (s : State) (c : Fault) (w : Option Word) : (takeFault c w s).acc = s.acc := rfl
@[simp] theorem takeFault_display (s : State) (c : Fault) (w : Option Word) : (takeFault c w s).display = s.display := rfl
@[simp] theorem takeFault_fault (s : State) (c : Fault) (w : Option Word) : (takeFault c w s).fault = some { cause := c, pc := s.pc, word := w } := rfl
@[simp] theorem takeFault_cfg (s : State) (c : Fault) (w : Option Word) : (takeFault c w s).cfg = s.cfg := rfl
@[simp] theorem takeFault_rndQueue (s : State) (c : Fault) (w : Option Word) : (takeFault c w s).rndQueue = s.rndQueue := rfl
@[simp] theorem takeFault_draws (s : State) (c : Fault) (w : Option Word) : (takeFault c w s).draws = s.draws := rfl

/-! ### `tick` -/

@[simp] theorem State.tick_mem (s : State) : (s.tick).mem = s.mem := rfl
@[simp] theorem State.tick_v (s : State) : (s.tick).v = s.v := rfl
@[simp] theorem State.tick_i (s : State) : (s.tick).i = s.i := rfl
@[simp] theorem State.tick_pc (s : State) : (s.tick).pc = s.pc := rfl
@[simp] theorem State.tick_stack (s : State) : (s.tick).stack = s.stack := rfl
@[simp] theorem State.tick_sp (s : State) : (s.tick).sp = s.sp := rfl
@[simp] theorem State.tick_dt (s : State) : (s.tick).dt = countDown s.dt := rfl
@[simp] theorem State.tick_st (s : State) : (s.tick).st = countDown s.st := rfl
@[simp] theorem State.tick_key (s : State) : (s.tick).key = s.key := rfl
@[simp] theorem State.tick_lk (s : State) : (s.tick).lk = s.lk := rfl
@[simp] theorem State.tick_acc (s : State) : (s.tick).acc = s.acc := rfl
@[simp] theorem State.tick_display (s : State) : (s.tick).display = s.display := rfl
@[simp] theorem State.tick_fault (s : State) : (s.tick).fault = s.fault := rfl
@[simp] theorem State.tick_cfg (s : State) : (s.tick).cfg = s.cfg := rfl
@[simp] theorem State.tick_rndQueue (s : State) : (s.tick).rndQueue = s.rndQueue := rfl
@[simp] theorem State.tick_draws (s : State) : (s.tick).draws = s.draws := rfl

/-! ### `dropRnd` -/

@[simp] theorem State.dropRnd_mem (s : State) : (s.dropRnd).mem = s.mem := rfl
@[simp] theorem State.dropRnd_v (s : State) : (s.dropRnd).v = s.v := rfl
@[simp] theorem State.dropRnd_i (s : State) : (s.dropRnd).i = s.i := rfl
@[simp] theorem State.dropRnd_pc (s : State) : (s.dropRnd).pc = s.pc := rfl
@[simp] theorem State.dropRnd_stack (s : State) : (s.dropRnd).stack = s.stack := rfl
@[simp] theorem State.dropRnd_sp (s : State) : (s.dropRnd).sp = s.sp := rfl
@[simp] theorem State.dropRnd_dt (s : State) : (s.dropRnd).dt = s.dt := rfl
@[simp] theorem State.dropRnd_st (s : State) : (s.dropRnd).st = s.st := rfl
@[simp] theorem State.dropRnd_key (s : State) : (s.dropRnd).key = s.key := rfl
@[simp] theorem State.dropRnd_lk (s : State) : (s.dropRnd).lk = s.lk := rfl
@[simp] theorem State.dropRnd_acc (s : State) : (s.dropRnd).acc = s.acc := rfl
@[simp] theorem State.dropRnd_display (s : State) : (s.dropRnd).display = s.display := rfl
@[simp] theorem State.dropRnd_fault (s : State) : (s.dropRnd).fault = s.fault := rfl
@[simp] theorem State.dropRnd_cfg (s : State) : (s.dropRnd).cfg = s.cfg := rfl
@[simp] theorem State.dropRnd_rndQueue (s : State) : (s.dropRnd).rndQueue = s.rndQueue.tail := rfl
@[simp] theorem State.dropRnd_draws (s : State) : (s.dropRnd).draws = s.draws + 1 := rfl

/-! ### `setKey` -/

@[simp] theorem State.setKey_mem (s : State) (k : Key) (p : Bool) : (s.setKey k p).mem = s.mem := rfl
@[simp] theorem State.setKey_v (s : State) (k : Key) (p : Bool) : (s.setKey k p).v = s.v := rfl
@[simp] theorem State.setKey_i (s : State) (k : Key) (p : Bool) : (s.setKey k p).i = s.i := rfl
@[simp] theorem State.setKey_pc (s : State) (k : Key) (p : Bool) : (s.setKey k p).pc = s.pc := rfl
@[simp] theorem State.setKey_stack (s : State) (k : Key) (p : Bool) : (s.setKey k p).stack = s.stack := rfl
@[simp] theorem State.setKey_sp (s : State) (k : Key) (p : Bool) : (s.setKey k p).sp = s.sp := rfl
@[simp] theorem State.setKey_dt (s : State) (k : Key) (p : Bool) : (s.setKey k p).dt = s.dt := rfl
@[simp] theorem State.setKey_st (s : State) (k : Key) (p : Bool) : (s.setKey k p).st = s.st := rfl
@[simp] theorem State.setKey_key (s : State) (k : Key) (p : Bool) : (s.setKey k p).key = s.key.set k p := rfl
@[simp] theorem State.setKey_lk (s : State) (k : Key) (p : Bool) : (s.setKey k p).lk = if p then some k else s.lk := rfl
@[simp] theorem State.setKey_acc (s : State) (k : Key) (p : Bool) : (s.setKey k p).acc = s.acc := rfl
@[simp] theorem State.setKey_display (s : State) (k : Key) (p : Bool) : (s.setKey k p).display = s.display := rfl
@[simp] theorem State.setKey_fault (s : State) (k : Key) (p : Bool) : (s.setKey k p).fault = s.fault := rfl
@[simp] theorem State.setKey_cfg (s : State) (k : Key) (p : Bool) : (s.setKey k p).cfg = s.cfg := rfl
@[simp] theorem State.setKey_rndQueue (s : State) (k : Key) (p : Bool) : (s.setKey k p).rndQueue = s.rndQueue := rfl
@[simp] theorem State.setKey_draws (s : State) (k : Key) (p : Bool) : (s.setKey k p).draws = s.draws := rfl

/-! ### `readyToFetch` -/

@[simp] theorem State.readyToFetch_mem (s : State) : (s.readyToFetch).mem = s.mem := rfl
@[simp] theorem State.readyToFetch_v (s : State) : (s.readyToFetch).v = s.v := rfl
@[simp] theorem State.readyToFetch_i (s : State) : (s.readyToFetch).i = s.i := rfl
@[simp] theorem State.readyToFetch_pc (s : State) : (s.readyToFetch).pc = if s.fetchOutOfRange then programStart else s.pc := rfl
@[simp] theorem State.readyToFetch_stack (s : State) : (s.readyToFetch).stack = s.stack := rfl
@[simp] theorem State.readyToFetch_sp (s : State) : (s.readyToFetch).sp = s.sp := rfl
@[simp] theorem State.readyToFetch_dt (s : State) : (s.readyToFetch).dt = s.dt := rfl
@[simp] theorem State.readyToFetch_st (s : State) : (s.readyToFetch).st = s.st := rfl
@[simp] theorem State.readyToFetch_key (s : State) : (s.readyToFetch).key = s.key := rfl
@[simp] theorem State.readyToFetch_lk (s : State) : (s.readyToFetch).lk = s.lk := rfl
@[simp] theorem State.readyToFetch_acc (s : State) : (s.readyToFetch).acc = s.acc := rfl
@[simp] theorem State.readyToFetch_display (s : State) : (s.readyToFetch).display = s.display := rfl
@[simp] theorem State.readyToFetch_fault (s : State) : (s.readyToFetch).fault = none := rfl
@[simp] theorem State.readyToFetch_cfg (s : State) : (s.readyToFetch).cfg = s.cfg := rfl
@[simp] theorem State.readyToFetch_rndQueue (s : State) : (s.readyToFetch).rndQueue = s.rndQueue := rfl
@[simp] theorem State.readyToFetch_draws (s : State) : (s.readyToFetch).draws = s.draws := rfl

/-! ### `countStep`, whose accumulator and timers depend on the ratio -/

@[simp] theorem State.countStep_mem (s : State) : s.countStep.mem = s.mem := by unfold State.countStep; split <;> rfl
@[simp] theorem State.countStep_v (s : State) : s.countStep.v = s.v := by unfold State.countStep; split <;> rfl
@[simp] theorem State.countStep_i (s : State) : s.countStep.i = s.i := by unfold State.countStep; split <;> rfl
@[simp] theorem State.countStep_pc (s : State) : s.countStep.pc = s.pc := by unfold State.countStep; split <;> rfl
@[simp] theorem State.countStep_stack (s : State) : s.countStep.stack = s.stack := by unfold State.countStep; split <;> rfl
@[simp] theorem State.countStep_sp (s : State) : s.countStep.sp = s.sp := by unfold State.countStep; split <;> rfl
@[simp] theorem State.countStep_key (s : State) : s.countStep.key = s.key := by unfold State.countStep; split <;> rfl
@[simp] theorem State.countStep_lk (s : State) : s.countStep.lk = s.lk := by unfold State.countStep; split <;> rfl
@[simp] theorem State.countStep_display (s : State) : s.countStep.display = s.display := by unfold State.countStep; split <;> rfl
@[simp] theorem State.countStep_fault (s : State) : s.countStep.fault = s.fault := by unfold State.countStep; split <;> rfl
@[simp] theorem State.countStep_cfg (s : State) : s.countStep.cfg = s.cfg := by unfold State.countStep; split <;> rfl
@[simp] theorem State.countStep_rndQueue (s : State) : s.countStep.rndQueue = s.rndQueue := by unfold State.countStep; split <;> rfl
@[simp] theorem State.countStep_draws (s : State) : s.countStep.draws = s.draws := by unfold State.countStep; split <;> rfl

/-- The accumulator, with its wrap at the ratio (R235, R236). -/
theorem State.countStep_acc (s : State) :
    s.countStep.acc = if s.acc + 1 = s.cfg.cyclesPerTick then 0 else s.acc + 1 := by unfold State.countStep; split <;> rfl
/-- The delay timer moves only in a step that ticks (R236). -/
theorem State.countStep_dt (s : State) :
    s.countStep.dt = if s.acc + 1 = s.cfg.cyclesPerTick then countDown s.dt else s.dt := by unfold State.countStep; split <;> rfl
/-- The sound timer moves only in a step that ticks (R236). -/
theorem State.countStep_st (s : State) :
    s.countStep.st = if s.acc + 1 = s.cfg.cyclesPerTick then countDown s.st else s.st := by unfold State.countStep; split <;> rfl

/-! ### `setBytesFrom`, which writes memory alone -/

@[simp] theorem State.setBytesFrom_v (us : List Byte) : ∀ (s : State) (a : Nat), (s.setBytesFrom a us).v = s.v := by
  induction us with
  | nil => exact fun _ _ => rfl
  | cons u us ih => intro s a; simp [State.setBytesFrom, ih]
@[simp] theorem State.setBytesFrom_i (us : List Byte) : ∀ (s : State) (a : Nat), (s.setBytesFrom a us).i = s.i := by
  induction us with
  | nil => exact fun _ _ => rfl
  | cons u us ih => intro s a; simp [State.setBytesFrom, ih]
@[simp] theorem State.setBytesFrom_pc (us : List Byte) : ∀ (s : State) (a : Nat), (s.setBytesFrom a us).pc = s.pc := by
  induction us with
  | nil => exact fun _ _ => rfl
  | cons u us ih => intro s a; simp [State.setBytesFrom, ih]
@[simp] theorem State.setBytesFrom_stack (us : List Byte) : ∀ (s : State) (a : Nat), (s.setBytesFrom a us).stack = s.stack := by
  induction us with
  | nil => exact fun _ _ => rfl
  | cons u us ih => intro s a; simp [State.setBytesFrom, ih]
@[simp] theorem State.setBytesFrom_sp (us : List Byte) : ∀ (s : State) (a : Nat), (s.setBytesFrom a us).sp = s.sp := by
  induction us with
  | nil => exact fun _ _ => rfl
  | cons u us ih => intro s a; simp [State.setBytesFrom, ih]
@[simp] theorem State.setBytesFrom_dt (us : List Byte) : ∀ (s : State) (a : Nat), (s.setBytesFrom a us).dt = s.dt := by
  induction us with
  | nil => exact fun _ _ => rfl
  | cons u us ih => intro s a; simp [State.setBytesFrom, ih]
@[simp] theorem State.setBytesFrom_st (us : List Byte) : ∀ (s : State) (a : Nat), (s.setBytesFrom a us).st = s.st := by
  induction us with
  | nil => exact fun _ _ => rfl
  | cons u us ih => intro s a; simp [State.setBytesFrom, ih]
@[simp] theorem State.setBytesFrom_key (us : List Byte) : ∀ (s : State) (a : Nat), (s.setBytesFrom a us).key = s.key := by
  induction us with
  | nil => exact fun _ _ => rfl
  | cons u us ih => intro s a; simp [State.setBytesFrom, ih]
@[simp] theorem State.setBytesFrom_lk (us : List Byte) : ∀ (s : State) (a : Nat), (s.setBytesFrom a us).lk = s.lk := by
  induction us with
  | nil => exact fun _ _ => rfl
  | cons u us ih => intro s a; simp [State.setBytesFrom, ih]
@[simp] theorem State.setBytesFrom_acc (us : List Byte) : ∀ (s : State) (a : Nat), (s.setBytesFrom a us).acc = s.acc := by
  induction us with
  | nil => exact fun _ _ => rfl
  | cons u us ih => intro s a; simp [State.setBytesFrom, ih]
@[simp] theorem State.setBytesFrom_display (us : List Byte) : ∀ (s : State) (a : Nat), (s.setBytesFrom a us).display = s.display := by
  induction us with
  | nil => exact fun _ _ => rfl
  | cons u us ih => intro s a; simp [State.setBytesFrom, ih]
@[simp] theorem State.setBytesFrom_fault (us : List Byte) : ∀ (s : State) (a : Nat), (s.setBytesFrom a us).fault = s.fault := by
  induction us with
  | nil => exact fun _ _ => rfl
  | cons u us ih => intro s a; simp [State.setBytesFrom, ih]
@[simp] theorem State.setBytesFrom_cfg (us : List Byte) : ∀ (s : State) (a : Nat), (s.setBytesFrom a us).cfg = s.cfg := by
  induction us with
  | nil => exact fun _ _ => rfl
  | cons u us ih => intro s a; simp [State.setBytesFrom, ih]
@[simp] theorem State.setBytesFrom_rndQueue (us : List Byte) : ∀ (s : State) (a : Nat), (s.setBytesFrom a us).rndQueue = s.rndQueue := by
  induction us with
  | nil => exact fun _ _ => rfl
  | cons u us ih => intro s a; simp [State.setBytesFrom, ih]
@[simp] theorem State.setBytesFrom_draws (us : List Byte) : ∀ (s : State) (a : Nat), (s.setBytesFrom a us).draws = s.draws := by
  induction us with
  | nil => exact fun _ _ => rfl
  | cons u us ih => intro s a; simp [State.setBytesFrom, ih]

end Sys2Proof.Machine
end

