-- ==== Sys2Proof/Laws/Memory.lean ====
section
/-! SUPPORT. Memory: read after write, the canonical form, and blocks. -/

namespace Sys2Proof.Machine

/-! ## One byte -/

/-- A write leaves every other address alone. -/
theorem Memory.read_write_other {font : Font} {a b : Nat} (h : b ≠ a) (u : Byte) (m : Memory) :
    Memory.read font (Memory.write font m a u) b = Memory.read font m b := by
  induction m with
  | nil => unfold Memory.write; split <;> simp [Memory.read, h]
  | cons c m ih =>
    obtain ⟨c, w⟩ := c
    unfold Memory.write
    split
    · split <;> simp [Memory.read, h]
    · split
      · rename_i hac
        subst hac
        split <;> simp [Memory.read, h]
      · simp [Memory.read, ih]

/-- Below the first address of a canonical list, every address reads as unlisted. -/
theorem Memory.read_of_lt {font : Font} {m : Memory} : ∀ {lo a : Nat}, Memory.wfFrom font lo m = true → a < lo →
    Memory.read font m a = Memory.blank font a := by
  induction m with
  | nil => intros; rfl
  | cons c m ih =>
    obtain ⟨c, w⟩ := c
    intro lo a h hlt
    simp only [Memory.wfFrom, Bool.and_eq_true, decide_eq_true_eq] at h
    rw [Memory.read, if_neg (by omega), ih h.2 (by omega)]

/-- A read after a write to the same address gives the value written. -/
theorem Memory.read_write_same {font : Font} {a : Nat} {u : Byte} {m : Memory} :
    ∀ {lo : Nat}, Memory.wfFrom font lo m = true → Memory.read font (Memory.write font m a u) a = u := by
  induction m with
  | nil => intro lo _; unfold Memory.write; split <;> simp_all [Memory.read]
  | cons c m ih =>
    obtain ⟨c, w⟩ := c
    intro lo h
    have h' := h
    simp only [Memory.wfFrom, Bool.and_eq_true, decide_eq_true_eq] at h
    unfold Memory.write
    split
    · split
      · rename_i hlt hu
        rw [Memory.read, if_neg (by omega), Memory.read_of_lt h.2 (by omega), hu]
      · simp [Memory.read]
    · split
      · rename_i hac
        subst hac
        split
        · rename_i hu
          rw [Memory.read_of_lt h.2 (by omega), hu]
        · simp [Memory.read]
      · rename_i _ hne
        rw [Memory.read, if_neg hne, ih h.2]

/-- The bound of the canonical form may be lowered. -/
theorem Memory.wfFrom_mono {font : Font} {m : Memory} {lo lo' : Nat} (h : Memory.wfFrom font lo m = true) (hle : lo' ≤ lo) :
    Memory.wfFrom font lo' m = true := by
  cases m with
  | nil => rfl
  | cons c m =>
    obtain ⟨c, w⟩ := c
    simp only [Memory.wfFrom, Bool.and_eq_true, decide_eq_true_eq] at h ⊢
    exact ⟨⟨⟨by omega, h.1.1.2⟩, h.1.2⟩, h.2⟩

/-- A write inside memory keeps the canonical form. -/
theorem Memory.wfFrom_write {font : Font} {a : Nat} {u : Byte} {m : Memory} (ha : a < memSize) :
    ∀ {lo : Nat}, Memory.wfFrom font lo m = true → lo ≤ a → Memory.wfFrom font lo (Memory.write font m a u) = true := by
  induction m with
  | nil => intro lo _ hlo; unfold Memory.write; split <;> simp_all [Memory.wfFrom]
  | cons c m ih =>
    obtain ⟨c, w⟩ := c
    intro lo h hlo
    have h' := h
    simp only [Memory.wfFrom, Bool.and_eq_true, decide_eq_true_eq] at h
    unfold Memory.write
    split
    · split
      · exact h'
      · rename_i hlt hu
        simp only [Memory.wfFrom, Bool.and_eq_true, decide_eq_true_eq]
        exact ⟨⟨⟨hlo, ha⟩, hu⟩, ⟨⟨by omega, h.1.1.2⟩, h.1.2⟩, h.2⟩
    · split
      · rename_i hac
        subst hac
        split
        · exact Memory.wfFrom_mono h.2 (by omega)
        · rename_i hu
          simp only [Memory.wfFrom, Bool.and_eq_true, decide_eq_true_eq]
          exact ⟨⟨⟨hlo, ha⟩, hu⟩, h.2⟩
      · simp only [Memory.wfFrom, Bool.and_eq_true, decide_eq_true_eq]
        exact ⟨h.1, ih h.2 (by omega)⟩

/-- Every write of one byte inside memory keeps `Memory.wf`. -/
theorem Memory.wf_write {font : Font} {m : Memory} {a : Nat} {u : Byte} (h : Memory.wf font m = true) (ha : a < memSize) :
    Memory.wf font (Memory.write font m a u) = true := Memory.wfFrom_write ha h (Nat.zero_le a)

/-! ## The state's view -/

@[simp] theorem State.byteAt_setByte_other {s : State} {a b : Nat} (h : b ≠ a) (u : Byte) :
    (s.setByte a u).byteAt b = s.byteAt b := Memory.read_write_other h u s.mem

theorem State.byteAt_setByte_same {s : State} (h : Memory.wf s.cfg.font s.mem = true) (a : Nat) (u : Byte) :
    (s.setByte a u).byteAt a = u := Memory.read_write_same h

/-- `byteAt` sees memory and the font alone. -/
theorem State.byteAt_congr {s t : State} (hm : t.mem = s.mem) (hc : t.cfg = s.cfg) (a : Nat) : t.byteAt a = s.byteAt a := by
  simp [State.byteAt, hm, hc]

theorem State.byteAt_resetWith (cfg : Config) (a : Nat) :
    (State.resetWith cfg).byteAt a = Memory.blank cfg.font a := rfl

/-! ## Blocks -/

/-- A block write leaves every address outside the block alone. -/
theorem State.byteAt_setBytesFrom_other {us : List Byte} : ∀ {s : State} {a b : Nat}, (b < a ∨ a + us.length ≤ b) →
    (s.setBytesFrom a us).byteAt b = s.byteAt b := by
  induction us with
  | nil => intros; rfl
  | cons u us ih =>
    intro s a b h
    rw [List.length_cons] at h
    rw [State.setBytesFrom, ih (by omega), State.byteAt_setByte_other (by omega)]

/-- A block write inside memory keeps the canonical form. -/
theorem State.wf_setBytesFrom {us : List Byte} : ∀ {s : State} {a : Nat}, Memory.wf s.cfg.font s.mem = true →
    a + us.length ≤ memSize → Memory.wf s.cfg.font (s.setBytesFrom a us).mem = true := by
  induction us with
  | nil => intro s a h _; exact h
  | cons u us ih =>
    intro s a h ha
    rw [List.length_cons] at ha
    exact ih (s := s.setByte a u) (Memory.wf_write h (by omega)) (by omega)

/-- A block write stores its bytes in order, from canonical memory. -/
theorem State.byteAt_setBytesFrom_same {us : List Byte} : ∀ {s : State} {a k : Nat} (hk : k < us.length),
    Memory.wf s.cfg.font s.mem = true → a + us.length ≤ memSize → (s.setBytesFrom a us).byteAt (a + k) = us[k] := by
  induction us with
  | nil => intro s a k hk; simp at hk
  | cons u us ih =>
    intro s a k hk h ha
    rw [List.length_cons] at ha hk
    cases k with
    | zero =>
      rw [State.setBytesFrom, State.byteAt_setBytesFrom_other (by omega)]
      exact State.byteAt_setByte_same h a u
    | succ k =>
      have := ih (s := s.setByte a u) (a := a + 1) (k := k) (by omega) (Memory.wf_write h (by omega)) (by omega)
      rw [State.setBytesFrom, show a + (k + 1) = a + 1 + k by omega, this]
      rfl

@[simp] theorem State.length_bytesFrom (s : State) : ∀ (n a : Nat), (s.bytesFrom a n).length = n := by
  intro n
  induction n with
  | zero => intro a; rfl
  | succ n ih => intro a; simp [State.bytesFrom, ih]

/-- A block read gives the bytes in order. -/
theorem State.getElem_bytesFrom (s : State) : ∀ (n a k : Nat) (hk : k < (s.bytesFrom a n).length),
    (s.bytesFrom a n)[k] = s.byteAt (a + k) := by
  intro n
  induction n with
  | zero => intro a k hk; simp [State.bytesFrom] at hk
  | succ n ih =>
    intro a k hk
    cases k with
    | zero => rfl
    | succ k =>
      simp only [State.bytesFrom, List.getElem_cons_succ]
      rw [ih, show a + 1 + k = a + (k + 1) by omega]

/-- Everything `readBlock` can do: a fault for a block that leaves memory, and else the bytes. -/
theorem readBlock_cases (s : State) (a n : Nat) :
    (blockOutOfRange a n = true ∧ readBlock s a n = .error .memoryOutOfRange) ∨
    (blockOutOfRange a n = false ∧ readBlock s a n = .ok (s.bytesFrom a n)) := by
  unfold readBlock
  cases h : blockOutOfRange a n <;> simp

/-- Everything `writeBlock` can do: a fault with nothing written, or the bytes written. -/
theorem writeBlock_cases (s : State) (a : Nat) (us : List Byte) :
    (blockOutOfRange a us.length = true ∧ writeBlock s a us = .error .memoryOutOfRange) ∨
    (blockOutOfRange a us.length = false ∧ writeBlock s a us = .ok (s.setBytesFrom a us)) := by
  unfold writeBlock
  cases h : blockOutOfRange a us.length <;> simp

/-- A nonempty block stays inside memory exactly when its last address does (R176). -/
theorem blockOutOfRange_iff (a n : Nat) : blockOutOfRange a n = true ↔ 0 < n ∧ 0x0FFF < a + n - 1 := by
  simp [blockOutOfRange]

/-- Whatever step `writeBlock` takes keeps the canonical form. -/
theorem writeBlock_keeps_wf {s t : State} {a : Nat} {us : List Byte} (h : Memory.wf s.cfg.font s.mem = true)
    (hw : writeBlock s a us = .ok t) : Memory.wf t.cfg.font t.mem = true := by
  rcases writeBlock_cases s a us with ⟨_, he⟩ | ⟨hr, hok⟩
  · rw [he] at hw; cases hw
  · rw [hok] at hw
    cases hw
    rw [State.setBytesFrom_cfg]
    cases us with
    | nil => exact h
    | cons u us =>
      refine State.wf_setBytesFrom h ?_
      have : ¬ (0 < (u :: us).length ∧ 0x0FFF < a + (u :: us).length - 1) := by
        rw [← blockOutOfRange_iff, hr]; simp
      simp only [List.length_cons, memSize] at this ⊢
      omega

/-- `MemWrite` keeps the canonical form (R53). -/
theorem memWrite_keeps_wf {s t : State} {a : Nat} {u : Byte} (h : Memory.wf s.cfg.font s.mem = true)
    (hw : memWrite s a u = .ok t) : Memory.wf t.cfg.font t.mem = true := by
  unfold memWrite at hw
  split at hw
  · cases hw
  · cases hw
    exact Memory.wf_write h (by unfold memSize; omega)

/-- Reset memory is in the canonical form. -/
theorem State.reset_wf : Memory.wf State.reset.cfg.font State.reset.mem = true := rfl

end Sys2Proof.Machine
end

