-- ==== Sys2Proof/Laws/Ops.lean ====
section
/-! SUPPORT. One lemma for each shared operation, saying everything it can do. -/

namespace Sys2Proof.Machine

/-! ## Immediates -/

@[simp] theorem addr_toNat (nnn : Addr12) : (addr nnn).toNat = nnn.toNat := by
  have := nnn.isLt
  simp only [addr, BitVec.toNat_setWidth]
  omega

@[simp] theorem zext16_toNat (b : Byte) : (zext16 b).toNat = b.toNat := by
  have := b.isLt
  simp only [zext16, BitVec.toNat_setWidth]
  omega

/-! ## Registers -/

@[simp] theorem State.reg_setReg_same (s : State) (x : Reg) (u : Byte) : (s.setReg x u).reg x = u := by
  simp [State.reg, State.setReg]

@[simp] theorem State.reg_setReg_other {s : State} {x r : Reg} (h : r ≠ x) (u : Byte) : (s.setReg x u).reg r = s.reg r := by
  simp only [State.reg, State.setReg, Fin.getElem_fin]
  exact Vector.getElem_set_ne _ _ (fun e => h (Fin.ext e.symm))

/-- `reg` sees the register file alone. -/
theorem State.reg_congr {s t : State} (h : t.v = s.v) (r : Reg) : t.reg r = s.reg r := by simp [State.reg, h]

/-- The result and the flag: the flag wins in VF (R130). -/
theorem State.reg_setResultAndFlag (s : State) (x r : Reg) (u : Byte) (c : Bool) :
    (s.setResultAndFlag x u c).reg r = if r = vf then flagByte c else if r = x then u else s.reg r := by
  unfold State.setResultAndFlag State.setFlag
  split
  · rename_i h; subst h; simp
  · rename_i h
    rw [State.reg_setReg_other h]
    split
    · rename_i h; subst h; simp
    · rename_i h; exact State.reg_setReg_other h u

/-- A load of registers writes the first registers and no other. -/
theorem State.reg_setRegsFrom0 (s : State) (us : List Byte) (r : Reg) :
    (s.setRegsFrom0 us).reg r = us.getD r.val (s.reg r) := by
  simp [State.reg, State.setRegsFrom0]

@[simp] theorem State.length_regsUpTo (s : State) (x : Reg) : (s.regsUpTo x).length = x.val + 1 := by
  simp only [State.regsUpTo, List.length_take, Vector.length_toList]
  omega

theorem State.getElem_regsUpTo (s : State) (x : Reg) (k : Nat) (hk : k < (s.regsUpTo x).length) :
    (s.regsUpTo x)[k] = s.reg ⟨k, by rw [State.length_regsUpTo] at hk; omega⟩ := by
  simp [State.regsUpTo, State.reg]

/-! ## The stack -/

/-- Everything `push` can do: overflow, or the address in the next slot and one slot more in use. -/
theorem push_cases (s : State) (a : Word) :
    (s.sp.val = 16 ∧ push s a = .error .stackOverflow) ∨
    (∃ h : s.sp.val < 16,
      push s a = .ok { s with stack := s.stack.set s.sp.val a h, sp := ⟨s.sp.val + 1, by omega⟩ }) := by
  unfold push
  by_cases h : s.sp.val < 16
  · exact .inr ⟨h, by rw [dif_pos h]⟩
  · exact .inl ⟨by omega, by rw [dif_neg h]⟩

/-- Everything `pop` can do: underflow, or the last slot in use and one slot fewer in use. -/
theorem pop_cases (s : State) :
    (s.sp.val = 0 ∧ pop s = .error .stackUnderflow) ∨
    (∃ h : s.sp.val - 1 < 16, 0 < s.sp.val ∧
      pop s = .ok (s.stack[s.sp.val - 1], { s with sp := ⟨s.sp.val - 1, by omega⟩ })) := by
  unfold pop
  by_cases h : s.sp.val = 0
  · exact .inl ⟨h, by rw [dif_pos h]⟩
  · exact .inr ⟨by omega, by omega, by rw [dif_neg h]⟩

/-! ## Keys -/

/-- Everything `keyIndex` can do: a fault above 0x0F, or the key. -/
theorem keyIndex_cases (k : Byte) :
    (0x0F < k.toNat ∧ keyIndex k = .error .keyIndexOutOfRange) ∨
    (∃ h : k.toNat < 16, keyIndex k = .ok ⟨k.toNat, h⟩) := by
  unfold keyIndex
  by_cases h : k.toNat < 16
  · exact .inr ⟨h, by rw [dif_pos h]⟩
  · exact .inl ⟨by omega, by rw [dif_neg h]⟩

/-! ## Fault entry -/

@[simp] theorem commit_ok (i : Instr) (s t : State) : commit i s (.ok t) = .next t := rfl

@[simp] theorem commit_error (i : Instr) (s : State) (c : Fault) :
    commit i s (.error c) = .next (takeFault c (some (encode i)) s) := rfl

/-- An execute that may raise always answers a next state: its result, or the fault taken (R237). -/
theorem commit_cases (i : Instr) (s : State) (r : Except Fault State) :
    (∃ t, r = .ok t ∧ commit i s r = .next t) ∨
    (∃ c, r = .error c ∧ commit i s r = .next (takeFault c (some (encode i)) s)) := by
  cases r with
  | ok t => exact .inl ⟨t, rfl, rfl⟩
  | error c => exact .inr ⟨c, rfl, rfl⟩

/-! ## The display -/

/-- A toggle flips the pixel at the wrapped coordinates and no other (R192). -/
theorem Display.pixel_togglePixel (d : Display) (px py : Nat) (x : Fin 64) (y : Fin 32) :
    Display.pixel (Display.togglePixel d px py).1 x y =
      (if x = wrapX px ∧ y = wrapY py then !Display.pixel d x y else Display.pixel d x y) := by
  unfold Display.togglePixel Display.pixel
  by_cases hy : y = wrapY py
  · subst hy
    by_cases hx : x = wrapX px
    · subst hx
      simp
    · have : ¬ x.val = (wrapX px).val := fun e => hx (Fin.ext e)
      simp [hx, this]
  · have : ¬ (wrapY py).val = y.val := fun e => hy (Fin.ext e.symm)
    simp [hy, this]

@[simp] theorem Display.togglePixel_snd (d : Display) (px py : Nat) :
    (Display.togglePixel d px py).2 = Display.pixel d (wrapX px) (wrapY py) := rfl

@[simp] theorem Display.pixel_clear (x : Fin 64) (y : Fin 32) : Display.pixel Display.clear x y = false := by
  simp [Display.pixel, Display.clear]

/-- The points that toggle one given pixel. -/
def hits (x : Fin 64) (y : Fin 32) (p : Nat × Nat) : Bool := decide (wrapX p.1 = x) && decide (wrapY p.2 = y)

/-- Toggling a list of points flips a pixel once for each point that wraps to it. -/
theorem Display.pixel_toggleAll (ps : List (Nat × Nat)) : ∀ (d : Display) (x : Fin 64) (y : Fin 32),
    Display.pixel (Display.toggleAll d ps).1 x y = (Display.pixel d x y ^^ decide ((ps.countP (hits x y)) % 2 = 1)) := by
  induction ps with
  | nil => intro d x y; simp [Display.toggleAll]
  | cons p ps ih =>
    intro d x y
    simp only [Display.toggleAll, ih, Display.pixel_togglePixel, List.countP_cons]
    by_cases h : x = wrapX p.1 ∧ y = wrapY p.2
    · have hp : hits x y p = true := by simp [hits, h.1, h.2]
      rw [if_pos h, hp, if_pos rfl]
      rcases Nat.mod_two_eq_zero_or_one (ps.countP (hits x y)) with h0 | h1
      · have h2 : (ps.countP (hits x y) + 1) % 2 = 1 := by omega
        simp [h0, h2]
      · have h2 : (ps.countP (hits x y) + 1) % 2 = 0 := by omega
        simp [h1, h2]
    · have hp : hits x y p = false := by
        simp only [hits, Bool.and_eq_false_iff, decide_eq_false_iff_not]
        by_cases hx : wrapX p.1 = x
        · exact .inr fun hy => h ⟨hx.symm, hy.symm⟩
        · exact .inl hx
      simp [h, hp]

/-! ## Counting steps -/

@[simp] theorem countDown_toNat (t : Byte) : (countDown t).toNat = t.toNat - 1 := by
  unfold countDown
  split
  · rename_i h; subst h; rfl
  · rename_i h
    have h0 : t.toNat ≠ 0 := fun e => h (BitVec.eq_of_toNat_eq (by simpa using e))
    rw [BitVec.toNat_sub_of_le (by rw [BitVec.le_def]; simp; omega)]
    rfl

/-- Everything `afterExecute` can do: nothing after a fault, and else the accumulator, the timers and the random input. -/
theorem State.afterExecute_cases (t : State) :
    (∃ r, t.fault = some r ∧ t.afterExecute = t) ∨ (t.fault = none ∧ t.afterExecute = t.countStep.dropRnd) := by
  unfold State.afterExecute
  cases h : t.fault with
  | none => exact .inr ⟨rfl, by simp⟩
  | some r => exact .inl ⟨r, rfl, by simp⟩

/-! ## The step -/

/-- Everything a step can do, from any state: nothing in a halted core (R238), the fetch fault (R232), or the execute of
the decoded word followed by the driver's count (R230). -/
theorem step_cases (s : State) :
    (∃ r, s.fault = some r ∧ step s = .next s) ∨
    (s.fault = none ∧ fetchLimit < s.pc.toNat ∧ step s = .next (takeFault .fetchOutOfRange none s)) ∨
    (s.fault = none ∧ s.pc.toNat ≤ fetchLimit ∧ step s = finish (exec (decode s.fetchWord) s)) := by
  unfold step
  cases h : s.fault with
  | some r => exact .inl ⟨r, rfl, by simp⟩
  | none =>
    by_cases hp : fetchLimit < s.pc.toNat
    · exact .inr (.inl ⟨rfl, hp, by simp [State.fetchOutOfRange, hp]⟩)
    · exact .inr (.inr ⟨rfl, by omega, by simp [State.fetchOutOfRange, hp]⟩)

end Sys2Proof.Machine
end

