-- ==== Sys2Proof/Laws/Decode.lean ====
section
/-! SUPPORT. The fields of a word and the words of the encoder as numbers, so that decoding reduces to arithmetic. -/

namespace Sys2Proof

theorem fieldOp_eq (w : Word) : fieldOp w = w.toNat / 4096 := by
  have := w.isLt
  simp only [fieldOp, bits, BitVec.extractLsb'_toNat, Nat.shiftRight_eq_div_pow]
  omega

theorem fieldX_val (w : Word) : (fieldX w).val = w.toNat / 256 % 16 := by
  simp [fieldX, bits, Nat.shiftRight_eq_div_pow]

theorem fieldY_val (w : Word) : (fieldY w).val = w.toNat / 16 % 16 := by
  simp [fieldY, bits, Nat.shiftRight_eq_div_pow]

theorem fieldN_val (w : Word) : (fieldN w).val = w.toNat % 16 := by
  simp [fieldN, bits]

theorem fieldKK_toNat (w : Word) : (fieldKK w).toNat = w.toNat % 256 := by
  simp [fieldKK, bits]

theorem fieldNNN_toNat (w : Word) : (fieldNNN w).toNat = w.toNat % 4096 := by
  simp [fieldNNN, bits]

@[simp] theorem wordNNN_toNat (op : Nat) (nnn : Addr12) : (wordNNN op nnn).toNat = (op * 4096 + nnn.toNat) % 65536 := by
  simp [wordNNN]

@[simp] theorem wordXKK_toNat (op : Nat) (x : Reg) (kk : Byte) :
    (wordXKK op x kk).toNat = (op * 4096 + x.val * 256 + kk.toNat) % 65536 := by
  simp [wordXKK]

@[simp] theorem wordXYN_toNat (op : Nat) (x y : Reg) (n : Nat) :
    (wordXYN op x y n).toNat = (op * 4096 + x.val * 256 + y.val * 16 + n) % 65536 := by
  simp [wordXYN]

/-- A field is the operand whose number it shows. -/
theorem fieldX_of {w : Word} {x : Reg} (h : w.toNat / 256 % 16 = x.val) : fieldX w = x := Fin.ext (by rw [fieldX_val, h])
theorem fieldY_of {w : Word} {y : Reg} (h : w.toNat / 16 % 16 = y.val) : fieldY w = y := Fin.ext (by rw [fieldY_val, h])
theorem fieldN_of {w : Word} {n : Rows} (h : w.toNat % 16 = n.val) : fieldN w = n := Fin.ext (by rw [fieldN_val, h])
theorem fieldKK_of {w : Word} {kk : Byte} (h : w.toNat % 256 = kk.toNat) : fieldKK w = kk :=
  BitVec.eq_of_toNat_eq (by rw [fieldKK_toNat, h])
theorem fieldNNN_of {w : Word} {nnn : Addr12} (h : w.toNat % 4096 = nnn.toNat) : fieldNNN w = nnn :=
  BitVec.eq_of_toNat_eq (by rw [fieldNNN_toNat, h])

/-- Every word but those of CLS and RET decodes by its major digit. -/
theorem decode_eq_major {w : Word} (h1 : w.toNat ≠ 0xE0) (h2 : w.toNat ≠ 0xEE) : decode w = decodeMajor w := by
  have ne1 : w ≠ 0x00E0 := fun e => h1 (by rw [e]; rfl)
  have ne2 : w ≠ 0x00EE := fun e => h2 (by rw [e]; rfl)
  unfold decode
  rw [if_neg ne1, if_neg ne2]

/-- `decode_eq_major` for a word whose major digit is not 0. -/
theorem decode_of_op {w : Word} {k : Nat} (h : w.toNat / 4096 = k) (hk : 0 < k) : decode w = decodeMajor w :=
  decode_eq_major (by omega) (by omega)

/-- A word of the nnn shape decodes by its major digit, and shows its digit and operand. -/
theorem decode_wordNNN {op : Nat} (h : 0 < op) (h' : op < 16) (nnn : Addr12) :
    decode (wordNNN op nnn) = decodeMajor (wordNNN op nnn) ∧ fieldOp (wordNNN op nnn) = op ∧
      fieldNNN (wordNNN op nnn) = nnn := by
  have : (wordNNN op nnn).toNat = op * 4096 + nnn.toNat := by simp; omega
  exact ⟨decode_eq_major (by omega) (by omega), by simp only [fieldOp_eq]; omega, fieldNNN_of (by omega)⟩

/-- A word of the xkk shape decodes by its major digit, and shows its digit and operands. -/
theorem decode_wordXKK {op : Nat} (h : 0 < op) (h' : op < 16) (x : Reg) (kk : Byte) :
    decode (wordXKK op x kk) = decodeMajor (wordXKK op x kk) ∧ fieldOp (wordXKK op x kk) = op ∧
      fieldX (wordXKK op x kk) = x ∧ fieldKK (wordXKK op x kk) = kk := by
  have : (wordXKK op x kk).toNat = op * 4096 + x.val * 256 + kk.toNat := by simp; omega
  exact ⟨decode_eq_major (by omega) (by omega), by simp only [fieldOp_eq]; omega, fieldX_of (by omega), fieldKK_of (by omega)⟩

/-- A word of the xyn shape decodes by its major digit, and shows its digits and operands. -/
theorem decode_wordXYN {op n : Nat} (h : 0 < op) (h' : op < 16) (hn : n < 16) (x y : Reg) :
    decode (wordXYN op x y n) = decodeMajor (wordXYN op x y n) ∧ fieldOp (wordXYN op x y n) = op ∧
      fieldX (wordXYN op x y n) = x ∧ fieldY (wordXYN op x y n) = y ∧ fieldN (wordXYN op x y n) = ⟨n, hn⟩ := by
  have : (wordXYN op x y n).toNat = op * 4096 + x.val * 256 + y.val * 16 + n := by simp; omega
  exact ⟨decode_eq_major (by omega) (by omega), by simp only [fieldOp_eq]; omega, fieldX_of (by omega), fieldY_of (by omega),
    fieldN_of (by simp only []; omega)⟩

/-- A table word of 16 bits is the word of that number. -/
theorem tableWord_toNat (w : Word) : tableWord 16 w.toNat = w := by
  apply BitVec.eq_of_toNat_eq
  have := w.isLt
  simp only [tableWord, BitVec.toNat_ofNat]
  omega

/-- The two bytes of a word, put together again, are the word (R55). -/
@[simp] theorem wordBytes_append (w : Word) : (bits w 8 8 ++ bits w 0 8 : Word) = w := by
  apply BitVec.eq_of_toNat_eq
  have := w.isLt
  rw [BitVec.toNat_append]
  simp only [bits, BitVec.extractLsb'_toNat, Nat.shiftRight_eq_div_pow]
  rw [← Nat.shiftLeft_add_eq_or_of_lt (by omega), Nat.shiftLeft_eq]
  omega

end Sys2Proof
end

