-- ==== Sys2Proof/Laws/Exec.lean ====
section
/-! SUPPORT. Everything each instruction that may fault can do: its fault, or its result. The other instructions are one
`.next` of one update, which `rfl` shows. And the driver around them. -/

namespace Sys2Proof.Machine

theorem execRet_cases (s : State) :
    (s.sp.val = 0 ∧ exec .ret s = .next (takeFault .stackUnderflow (some (encode .ret)) s)) ∨
    (∃ h : s.sp.val - 1 < 16, 0 < s.sp.val ∧
      exec .ret s = .next { s with sp := ⟨s.sp.val - 1, by omega⟩, pc := s.stack[s.sp.val - 1] + 2 }) := by
  rcases pop_cases s with ⟨h, e⟩ | ⟨h, h0, e⟩
  · exact .inl ⟨h, by simp only [exec, execRet, e]; rfl⟩
  · exact .inr ⟨h, h0, by simp only [exec, execRet, e]; rfl⟩

theorem execCallSubroutine_cases (nnn : Addr12) (s : State) :
    (s.sp.val = 16 ∧
      exec (.callSubroutine nnn) s = .next (takeFault .stackOverflow (some (encode (.callSubroutine nnn))) s)) ∨
    (∃ h : s.sp.val < 16, exec (.callSubroutine nnn) s =
      .next { s with stack := s.stack.set s.sp.val s.pc h, sp := ⟨s.sp.val + 1, by omega⟩, pc := addr nnn }) := by
  rcases push_cases s s.pc with ⟨h, e⟩ | ⟨h, e⟩
  · exact .inl ⟨h, by simp only [exec, execCallSubroutine, e]; rfl⟩
  · exact .inr ⟨h, by simp only [exec, execCallSubroutine, e]; rfl⟩

theorem execDraw_cases (x y : Reg) (n : Rows) (s : State) :
    ((0 < n.val ∧ 0x0FFF < s.i.toNat + n.val - 1) ∧
      exec (.draw x y n) s = .next (takeFault .memoryOutOfRange (some (encode (.draw x y n))) s)) ∨
    (¬ (0 < n.val ∧ 0x0FFF < s.i.toNat + n.val - 1) ∧
      ∃ drawn, drawn = drawSprite s.display (s.reg x).toNat (s.reg y).toNat (s.bytesFrom s.i.toNat n.val) ∧
        exec (.draw x y n) s = .next ((s.setDisplay drawn.1).setFlag drawn.2).advance) := by
  rcases readBlock_cases s s.i.toNat n.val with ⟨h, e⟩ | ⟨h, e⟩
  · exact .inl ⟨(blockOutOfRange_iff _ _).1 h, by simp only [exec, execDraw, e]; rfl⟩
  · refine .inr ⟨fun hb => ?_, _, rfl, by simp only [exec, execDraw, e]; rfl⟩
    rw [(blockOutOfRange_iff _ _).2 hb] at h
    cases h

theorem execStoreBCD_cases (x : Reg) (s : State) :
    (0x0FFF < s.i.toNat + 2 ∧
      exec (.storeBCD x) s = .next (takeFault .memoryOutOfRange (some (encode (.storeBCD x))) s)) ∨
    (s.i.toNat + 2 ≤ 0x0FFF ∧
      exec (.storeBCD x) s = .next (s.setBytesFrom s.i.toNat (decimalDigits (s.reg x))).advance) := by
  have hl : (decimalDigits (s.reg x)).length = 3 := rfl
  have hb := blockOutOfRange_iff s.i.toNat (decimalDigits (s.reg x)).length
  rcases writeBlock_cases s s.i.toNat (decimalDigits (s.reg x)) with ⟨h, e⟩ | ⟨h, e⟩
  · exact .inl ⟨by have := hb.1 h; omega, by simp only [exec, execStoreBCD, e]; rfl⟩
  · refine .inr ⟨Nat.le_of_not_lt fun hlt => ?_, by simp only [exec, execStoreBCD, e]; rfl⟩
    rw [hb.2 (by omega)] at h
    cases h

theorem execStoreRegs_cases (x : Reg) (s : State) :
    (0x0FFF < s.i.toNat + x.val ∧
      exec (.storeRegs x) s = .next (takeFault .memoryOutOfRange (some (encode (.storeRegs x))) s)) ∨
    (s.i.toNat + x.val ≤ 0x0FFF ∧ exec (.storeRegs x) s =
      .next ((s.setBytesFrom s.i.toNat (s.regsUpTo x)).setIndex (s.i + BitVec.ofNat 16 (x.val + 1))).advance) := by
  have hl : (s.regsUpTo x).length = x.val + 1 := s.length_regsUpTo x
  have hb := blockOutOfRange_iff s.i.toNat (s.regsUpTo x).length
  rcases writeBlock_cases s s.i.toNat (s.regsUpTo x) with ⟨h, e⟩ | ⟨h, e⟩
  · exact .inl ⟨by have := hb.1 h; omega, by simp only [exec, execStoreRegs, e]; rfl⟩
  · refine .inr ⟨Nat.le_of_not_lt fun hlt => ?_, by simp only [exec, execStoreRegs, e]; rfl⟩
    rw [hb.2 (by omega)] at h
    cases h

theorem execLoadRegs_cases (x : Reg) (s : State) :
    (0x0FFF < s.i.toNat + x.val ∧
      exec (.loadRegs x) s = .next (takeFault .memoryOutOfRange (some (encode (.loadRegs x))) s)) ∨
    (s.i.toNat + x.val ≤ 0x0FFF ∧ exec (.loadRegs x) s =
      .next ((s.setRegsFrom0 (s.bytesFrom s.i.toNat (x.val + 1))).setIndex (s.i + BitVec.ofNat 16 (x.val + 1))).advance) := by
  have hb := blockOutOfRange_iff s.i.toNat (x.val + 1)
  rcases readBlock_cases s s.i.toNat (x.val + 1) with ⟨h, e⟩ | ⟨h, e⟩
  · exact .inl ⟨by have := hb.1 h; omega, by simp only [exec, execLoadRegs, e]; rfl⟩
  · refine .inr ⟨Nat.le_of_not_lt fun hlt => ?_, by simp only [exec, execLoadRegs, e]; rfl⟩
    rw [hb.2 (by omega)] at h
    cases h

theorem execSkipIfKeyDown_cases (x : Reg) (s : State) :
    (0x0F < (s.reg x).toNat ∧
      exec (.skipIfKeyDown x) s = .next (takeFault .keyIndexOutOfRange (some (encode (.skipIfKeyDown x))) s)) ∨
    (∃ h : (s.reg x).toNat < 16, exec (.skipIfKeyDown x) s = .next (s.skipIf (s.keyDown ⟨(s.reg x).toNat, h⟩))) := by
  rcases keyIndex_cases (s.reg x) with ⟨h, e⟩ | ⟨h, e⟩
  · exact .inl ⟨h, by simp only [exec, execSkipIfKeyDown, e]; rfl⟩
  · exact .inr ⟨h, by simp only [exec, execSkipIfKeyDown, e]; rfl⟩

theorem execSkipIfKeyUp_cases (x : Reg) (s : State) :
    (0x0F < (s.reg x).toNat ∧
      exec (.skipIfKeyUp x) s = .next (takeFault .keyIndexOutOfRange (some (encode (.skipIfKeyUp x))) s)) ∨
    (∃ h : (s.reg x).toNat < 16, exec (.skipIfKeyUp x) s = .next (s.skipIf (!s.keyDown ⟨(s.reg x).toNat, h⟩))) := by
  rcases keyIndex_cases (s.reg x) with ⟨h, e⟩ | ⟨h, e⟩
  · exact .inl ⟨h, by simp only [exec, execSkipIfKeyUp, e]; rfl⟩
  · exact .inr ⟨h, by simp only [exec, execSkipIfKeyUp, e]; rfl⟩

theorem execWaitKey_cases (x : Reg) (s : State) :
    (s.lk = none ∧ exec (.waitKey x) s = .next s) ∨
    (∃ k, s.lk = some k ∧ exec (.waitKey x) s = .next ((s.setReg x (keyByte k)).setLK none).advance) := by
  cases h : s.lk with
  | none => exact .inl ⟨rfl, by simp only [exec, execWaitKey, h]⟩
  | some k => exact .inr ⟨k, rfl, by simp only [exec, execWaitKey, h]⟩

/-- A run of the core, one step at a time. -/
theorem core_run_succ {s t : State} (n : Nat) (h : step s = .next t) : Host.Core.run core (n + 1) s = Host.Core.run core n t := by
  simp [Host.Core.run, core, h]

/-- A state made ready to fetch has its pc within the fetch bound (R232). -/
theorem State.readyToFetch_pc_le (s : State) : s.readyToFetch.pc.toNat ≤ fetchLimit := by
  rw [State.readyToFetch_pc]
  by_cases h : s.fetchOutOfRange = true
  · rw [if_pos h]; decide
  · rw [if_neg h]; simpa [State.fetchOutOfRange] using h

/-- The fetch bound, as a number (R232). -/
theorem State.fetchOutOfRange_iff (s : State) : s.fetchOutOfRange = true ↔ 0x0FFE < s.pc.toNat := decide_eq_true_iff

/-- The load bound, as a number (R294). -/
theorem loadAccepted_iff (image : List Byte) : loadAccepted image = true ↔ image.length ≤ 0xE00 := decide_eq_true_iff

/-- A word is two bytes (R70). -/
theorem wordBytes_length (w : Word) : (wordBytes w).length = 2 := rfl

end Sys2Proof.Machine
end

