-- ==== Sys2Proof/Laws/PerInstr.lean ====
section
/-! SUPPORT. Per instruction: its word shows the fixed digits of its row of spec/opcode_table.json. -/

namespace Sys2Proof.Laws.OpcodeRow

/-- The fixed digits of a row: the major digit, and the value of the word modulo a power of 16 (1 where no low digit is fixed). -/
structure Row where
  op : Nat
  modulus : Nat
  low : Nat
deriving DecidableEq, Repr

/-- The row of an instruction, from the match and mask of spec/opcode_table.json. NoOp has none. -/
def row : Instr → Option Row
  | .sys _ => some ⟨0x0, 1, 0x0⟩
  | .clearScreen => some ⟨0x0, 4096, 0xE0⟩
  | .ret => some ⟨0x0, 4096, 0xEE⟩
  | .jump _ => some ⟨0x1, 1, 0x0⟩
  | .callSubroutine _ => some ⟨0x2, 1, 0x0⟩
  | .skipIfEqualByte _ _ => some ⟨0x3, 1, 0x0⟩
  | .skipIfNotEqualByte _ _ => some ⟨0x4, 1, 0x0⟩
  | .skipIfEqualReg _ _ => some ⟨0x5, 16, 0x0⟩
  | .loadByte _ _ => some ⟨0x6, 1, 0x0⟩
  | .addByte _ _ => some ⟨0x7, 1, 0x0⟩
  | .loadReg _ _ => some ⟨0x8, 16, 0x0⟩
  | .or _ _ => some ⟨0x8, 16, 0x1⟩
  | .and _ _ => some ⟨0x8, 16, 0x2⟩
  | .xor _ _ => some ⟨0x8, 16, 0x3⟩
  | .addReg _ _ => some ⟨0x8, 16, 0x4⟩
  | .subReg _ _ => some ⟨0x8, 16, 0x5⟩
  | .shiftRight _ _ => some ⟨0x8, 16, 0x6⟩
  | .subNReg _ _ => some ⟨0x8, 16, 0x7⟩
  | .shiftLeft _ _ => some ⟨0x8, 16, 0xE⟩
  | .skipIfNotEqualReg _ _ => some ⟨0x9, 16, 0x0⟩
  | .loadIndex _ => some ⟨0xA, 1, 0x0⟩
  | .jumpV0 _ => some ⟨0xB, 1, 0x0⟩
  | .random _ _ => some ⟨0xC, 1, 0x0⟩
  | .draw _ _ _ => some ⟨0xD, 1, 0x0⟩
  | .skipIfKeyDown _ => some ⟨0xE, 256, 0x9E⟩
  | .skipIfKeyUp _ => some ⟨0xE, 256, 0xA1⟩
  | .loadDelay _ => some ⟨0xF, 256, 0x7⟩
  | .waitKey _ => some ⟨0xF, 256, 0xA⟩
  | .setDelay _ => some ⟨0xF, 256, 0x15⟩
  | .setSound _ => some ⟨0xF, 256, 0x18⟩
  | .addIndex _ => some ⟨0xF, 256, 0x1E⟩
  | .loadFont _ => some ⟨0xF, 256, 0x29⟩
  | .storeBCD _ => some ⟨0xF, 256, 0x33⟩
  | .storeRegs _ => some ⟨0xF, 256, 0x55⟩
  | .loadRegs _ => some ⟨0xF, 256, 0x65⟩
  | .noOp _ => none

/-- A word shows the fixed digits of a row. -/
def shows (w : Word) (r : Row) : Prop := w.toNat / 4096 = r.op ∧ w.toNat % r.modulus = r.low

/-- The word of a well-formed instruction shows the fixed digits of the instruction's row. -/
def Statement (i : Instr) : Prop := i.wellFormed = true → ∀ r, row i = some r → shows (encode i) r

theorem shows_row {i : Instr} {r : Row} (hr : row i = some r)
    (h : (encode i).toNat / 4096 = r.op ∧ (encode i).toNat % r.modulus = r.low) : Statement i := by
  intro _ r' hr'
  rw [hr] at hr'
  cases hr'
  exact h

theorem sys (nnn : Addr12) : Statement (.sys nnn) := shows_row rfl (by simp [encode]; omega)
theorem clearScreen : Statement .clearScreen := shows_row rfl (by decide)
theorem ret : Statement .ret := shows_row rfl (by decide)
theorem jump (nnn : Addr12) : Statement (.jump nnn) := shows_row rfl (by simp [encode]; omega)
theorem callSubroutine (nnn : Addr12) : Statement (.callSubroutine nnn) := shows_row rfl (by simp [encode]; omega)
theorem skipIfEqualByte (x : Reg) (kk : Byte) : Statement (.skipIfEqualByte x kk) := shows_row rfl (by simp [encode]; omega)
theorem skipIfNotEqualByte (x : Reg) (kk : Byte) : Statement (.skipIfNotEqualByte x kk) := shows_row rfl (by simp [encode]; omega)
theorem skipIfEqualReg (x y : Reg) : Statement (.skipIfEqualReg x y) := shows_row rfl (by simp [encode]; omega)
theorem loadByte (x : Reg) (kk : Byte) : Statement (.loadByte x kk) := shows_row rfl (by simp [encode]; omega)
theorem addByte (x : Reg) (kk : Byte) : Statement (.addByte x kk) := shows_row rfl (by simp [encode]; omega)
theorem loadReg (x y : Reg) : Statement (.loadReg x y) := shows_row rfl (by simp [encode]; omega)
theorem or (x y : Reg) : Statement (.or x y) := shows_row rfl (by simp [encode]; omega)
theorem and (x y : Reg) : Statement (.and x y) := shows_row rfl (by simp [encode]; omega)
theorem xor (x y : Reg) : Statement (.xor x y) := shows_row rfl (by simp [encode]; omega)
theorem addReg (x y : Reg) : Statement (.addReg x y) := shows_row rfl (by simp [encode]; omega)
theorem subReg (x y : Reg) : Statement (.subReg x y) := shows_row rfl (by simp [encode]; omega)
theorem shiftRight (x y : Reg) : Statement (.shiftRight x y) := shows_row rfl (by simp [encode]; omega)
theorem subNReg (x y : Reg) : Statement (.subNReg x y) := shows_row rfl (by simp [encode]; omega)
theorem shiftLeft (x y : Reg) : Statement (.shiftLeft x y) := shows_row rfl (by simp [encode]; omega)
theorem skipIfNotEqualReg (x y : Reg) : Statement (.skipIfNotEqualReg x y) := shows_row rfl (by simp [encode]; omega)
theorem loadIndex (nnn : Addr12) : Statement (.loadIndex nnn) := shows_row rfl (by simp [encode]; omega)
theorem jumpV0 (nnn : Addr12) : Statement (.jumpV0 nnn) := shows_row rfl (by simp [encode]; omega)
theorem random (x : Reg) (kk : Byte) : Statement (.random x kk) := shows_row rfl (by simp [encode]; omega)
theorem draw (x y : Reg) (n : Rows) : Statement (.draw x y n) := shows_row rfl (by simp [encode]; omega)
theorem skipIfKeyDown (x : Reg) : Statement (.skipIfKeyDown x) := shows_row rfl (by simp [encode]; omega)
theorem skipIfKeyUp (x : Reg) : Statement (.skipIfKeyUp x) := shows_row rfl (by simp [encode]; omega)
theorem loadDelay (x : Reg) : Statement (.loadDelay x) := shows_row rfl (by simp [encode]; omega)
theorem waitKey (x : Reg) : Statement (.waitKey x) := shows_row rfl (by simp [encode]; omega)
theorem setDelay (x : Reg) : Statement (.setDelay x) := shows_row rfl (by simp [encode]; omega)
theorem setSound (x : Reg) : Statement (.setSound x) := shows_row rfl (by simp [encode]; omega)
theorem addIndex (x : Reg) : Statement (.addIndex x) := shows_row rfl (by simp [encode]; omega)
theorem loadFont (x : Reg) : Statement (.loadFont x) := shows_row rfl (by simp [encode]; omega)
theorem storeBCD (x : Reg) : Statement (.storeBCD x) := shows_row rfl (by simp [encode]; omega)
theorem storeRegs (x : Reg) : Statement (.storeRegs x) := shows_row rfl (by simp [encode]; omega)
theorem loadRegs (x : Reg) : Statement (.loadRegs x) := shows_row rfl (by simp [encode]; omega)
theorem noOp (w : Word) : Statement (.noOp w) := fun _ r h => by simp [row] at h

end Sys2Proof.Laws.OpcodeRow
end

