-- ==== Sys2Proof/Laws/Screen.lean ====
section
/-! SUPPORT. The display under a list of toggles: which points a sprite has, that no two of them wrap to one pixel, and
what toggling such points leaves. -/

namespace Sys2Proof.Machine

/-- The pixel a point wraps to. -/
def wrapPoint (p : Nat × Nat) : Fin 64 × Fin 32 := (wrapX p.1, wrapY p.2)

theorem wrapPoint_eq_iff (p q : Nat × Nat) : wrapPoint p = wrapPoint q ↔ p.1 % 64 = q.1 % 64 ∧ p.2 % 32 = q.2 % 32 := by
  simp [wrapPoint, wrapX, wrapY, Fin.ext_iff]

/-- Toggling points that wrap to distinct pixels flips exactly those pixels. -/
theorem Display.pixel_toggleAll_distinct {ps : List (Nat × Nat)} : ∀ {d : Display},
    ps.Pairwise (fun p q => wrapPoint p ≠ wrapPoint q) → ∀ (x : Fin 64) (y : Fin 32),
    Display.pixel (Display.toggleAll d ps).1 x y = (Display.pixel d x y ^^ decide (∃ p ∈ ps, wrapPoint p = (x, y))) := by
  induction ps with
  | nil => intro d _ x y; simp [Display.toggleAll]
  | cons p ps ih =>
    intro d h x y
    obtain ⟨hp, h⟩ := List.pairwise_cons.1 h
    simp only [Display.toggleAll, ih h, Display.pixel_togglePixel, List.exists_mem_cons_iff]
    by_cases hxy : wrapPoint p = (x, y)
    · have hno : ¬ ∃ q ∈ ps, wrapPoint q = (x, y) := fun ⟨q, hq, e⟩ => hp q hq (hxy.trans e.symm)
      have hw : x = wrapX p.1 ∧ y = wrapY p.2 := by simpa [wrapPoint, eq_comm] using hxy
      rw [if_pos hw]
      simp only [hno, hxy, true_or, decide_true, decide_false, Bool.xor_false, Bool.xor_true]
    · have hw : ¬ (x = wrapX p.1 ∧ y = wrapY p.2) := by simpa [wrapPoint, eq_comm] using hxy
      simp [hxy, hw]

/-- Toggling points that wrap to distinct pixels reports an erasure exactly when one of those pixels was lit. -/
theorem Display.toggleAll_snd_distinct {ps : List (Nat × Nat)} : ∀ {d : Display},
    ps.Pairwise (fun p q => wrapPoint p ≠ wrapPoint q) →
    ((Display.toggleAll d ps).2 = true ↔ ∃ p ∈ ps, Display.pixel d (wrapX p.1) (wrapY p.2) = true) := by
  induction ps with
  | nil => intro d _; simp [Display.toggleAll]
  | cons p ps ih =>
    intro d h
    obtain ⟨hp, h⟩ := List.pairwise_cons.1 h
    simp only [Display.toggleAll, Bool.or_eq_true, ih h, Display.togglePixel_snd, List.exists_mem_cons_iff]
    refine or_congr_right (exists_congr fun q => and_congr_right fun hq => ?_)
    have hw : ¬ (wrapX q.1 = wrapX p.1 ∧ wrapY q.2 = wrapY p.2) := fun e => hp q hq (by simp [wrapPoint, e.1, e.2])
    rw [Display.pixel_togglePixel, if_neg hw]

theorem mem_rowColumns {xs : Nat} {b : Byte} {px : Nat} :
    px ∈ rowColumns xs b ↔ ∃ c, c < 8 ∧ b.getLsbD (7 - c) = true ∧ px = xs + c := by
  simp only [rowColumns, List.mem_map, List.mem_filter, List.mem_range]
  exact ⟨fun ⟨c, ⟨h1, h2⟩, e⟩ => ⟨c, h1, h2, e.symm⟩, fun ⟨c, h1, h2, e⟩ => ⟨c, ⟨h1, h2⟩, e.symm⟩⟩

/-- The points of a sprite are its set bits, row by row (R196, R197). -/
theorem mem_spritePoints {xs : Nat} {bs : List Byte} : ∀ {ys : Nat} {p : Nat × Nat},
    p ∈ spritePoints xs ys bs ↔
      ∃ r c, c < 8 ∧ (∃ h : r < bs.length, bs[r].getLsbD (7 - c) = true) ∧ p = (xs + c, ys + r) := by
  induction bs with
  | nil => intro ys p; simp [spritePoints]
  | cons b bs ih =>
    intro ys p
    simp only [spritePoints, List.mem_append, List.mem_map, mem_rowColumns, ih]
    constructor
    · rintro (⟨px, ⟨c, hc, hb, rfl⟩, rfl⟩ | ⟨r, c, hc, ⟨hr, hb⟩, rfl⟩)
      · exact ⟨0, c, hc, ⟨by simp, by simpa using hb⟩, rfl⟩
      · exact ⟨r + 1, c, hc, ⟨by simpa using hr, by simpa using hb⟩, by rw [Nat.add_right_comm, Nat.add_assoc]⟩
    · rintro ⟨r, c, hc, ⟨hr, hb⟩, rfl⟩
      cases r with
      | zero => exact .inl ⟨xs + c, ⟨c, hc, by simpa using hb, rfl⟩, rfl⟩
      | succ r =>
        exact .inr ⟨r, c, hc, ⟨by simpa using hr, by simpa using hb⟩, by rw [Nat.add_right_comm, Nat.add_assoc]⟩

/-- Within one sprite no two points wrap to one pixel (R200). -/
theorem spritePoints_distinct {xs : Nat} {bs : List Byte} : ∀ {ys : Nat}, bs.length ≤ 32 →
    (spritePoints xs ys bs).Pairwise (fun p q => wrapPoint p ≠ wrapPoint q) := by
  induction bs with
  | nil => intro ys _; exact List.Pairwise.nil
  | cons b bs ih =>
    intro ys h
    rw [List.length_cons] at h
    refine List.pairwise_append.2 ⟨?_, ih (by omega), ?_⟩
    · refine List.pairwise_map.2 (List.pairwise_map.2 ?_)
      refine List.Pairwise.imp_of_mem (fun {a c} ha hc hlt e => ?_) (List.pairwise_lt_range.filter _)
      have ha := List.mem_range.1 (List.mem_filter.1 ha).1
      have hc := List.mem_range.1 (List.mem_filter.1 hc).1
      have := ((wrapPoint_eq_iff _ _).1 e).1
      simp only at this
      omega
    · intro p hp q hq e
      obtain ⟨px, _, rfl⟩ := List.mem_map.1 hp
      obtain ⟨r, c, _, ⟨hr, _⟩, rfl⟩ := mem_spritePoints.1 hq
      have := ((wrapPoint_eq_iff _ _).1 e).2
      simp only at this
      omega

end Sys2Proof.Machine
end

