-- ==== Sys2Proof/Tests/Slice0.lean ====
section
/-! SUPPORT. Tests: the well-formedness check, decoding of words written from the spec's encodings, one-step results
from the rows of spec/95_test_vectors.md (named in each docstring), and a witness for the hypotheses of each obligation. -/

namespace Sys2Proof.Tests

open Sys2Proof.Machine

/-! ## Well-formedness: one ill-formed term for each check -/

theorem test_wf_refuses_sys_cls : (Instr.sys 0x0E0).wellFormed = false := by decide
theorem test_wf_refuses_sys_ret : (Instr.sys 0x0EE).wellFormed = false := by decide
theorem test_wf_refuses_noop_5xy0 : (Instr.noOp 0x5120).wellFormed = false := by decide
theorem test_wf_refuses_noop_8xy7 : (Instr.noOp 0x8AB7).wellFormed = false := by decide
theorem test_wf_refuses_noop_9xy0 : (Instr.noOp 0x9120).wellFormed = false := by decide
theorem test_wf_refuses_noop_ex9e : (Instr.noOp 0xE59E).wellFormed = false := by decide
theorem test_wf_refuses_noop_fx65 : (Instr.noOp 0xF165).wellFormed = false := by decide
theorem test_wf_refuses_noop_6xkk : (Instr.noOp 0x6A2F).wellFormed = false := by decide

/-! ## Decoding: for every constructor a word written out, bit by bit, from its encoding in spec/opcode_table.json -/

/-- encoding 0000nnnnnnnnnnnn -/
theorem test_decode_sys : decode 0b0000000011100001 = .sys 0x0E1 := by decide
/-- encoding 0000000011100000 -/
theorem test_decode_cls : decode 0b0000000011100000 = .clearScreen := by decide
/-- encoding 0000000011101110 -/
theorem test_decode_ret : decode 0b0000000011101110 = .ret := by decide
/-- encoding 0001nnnnnnnnnnnn -/
theorem test_decode_jump : decode 0b0001101010111100 = .jump 0xABC := by decide
/-- encoding 0010nnnnnnnnnnnn -/
theorem test_decode_call : decode 0b0010001100000001 = .callSubroutine 0x301 := by decide
/-- encoding 0011xxxxkkkkkkkk -/
theorem test_decode_se_byte : decode 0b0011111101111110 = .skipIfEqualByte 0xF 0x7E := by decide
/-- encoding 0100xxxxkkkkkkkk -/
theorem test_decode_sne_byte : decode 0b0100000110000001 = .skipIfNotEqualByte 0x1 0x81 := by decide
/-- encoding 0101xxxxyyyy0000 -/
theorem test_decode_se_reg : decode 0b0101000100100000 = .skipIfEqualReg 1 2 := by decide
/-- encoding 0110xxxxkkkkkkkk -/
theorem test_decode_load_byte : decode 0b0110101000101111 = .loadByte 0xA 0x2F := by decide
/-- encoding 0111xxxxkkkkkkkk -/
theorem test_decode_add_byte : decode 0b0111001111111110 = .addByte 3 0xFE := by decide
/-- encoding 1000xxxxyyyy0000 -/
theorem test_decode_load_reg : decode 0b1000001000010000 = .loadReg 2 1 := by decide
/-- encoding 1000xxxxyyyy0001 -/
theorem test_decode_or : decode 0b1000000100100001 = .or 1 2 := by decide
/-- encoding 1000xxxxyyyy0010 -/
theorem test_decode_and : decode 0b1000000100100010 = .and 1 2 := by decide
/-- encoding 1000xxxxyyyy0011 -/
theorem test_decode_xor : decode 0b1000000100100011 = .xor 1 2 := by decide
/-- encoding 1000xxxxyyyy0100 -/
theorem test_decode_add_reg : decode 0b1000101010110100 = .addReg 0xA 0xB := by decide
/-- encoding 1000xxxxyyyy0101 -/
theorem test_decode_sub : decode 0b1000101010110101 = .subReg 0xA 0xB := by decide
/-- encoding 1000xxxxyyyy0110 -/
theorem test_decode_shr : decode 0b1000101010110110 = .shiftRight 0xA 0xB := by decide
/-- encoding 1000xxxxyyyy0111 -/
theorem test_decode_subn : decode 0b1000101010110111 = .subNReg 0xA 0xB := by decide
/-- encoding 1000xxxxyyyy1110 -/
theorem test_decode_shl : decode 0b1000101010111110 = .shiftLeft 0xA 0xB := by decide
/-- encoding 1001xxxxyyyy0000 -/
theorem test_decode_sne_reg : decode 0b1001000100100000 = .skipIfNotEqualReg 1 2 := by decide
/-- encoding 1010nnnnnnnnnnnn -/
theorem test_decode_load_index : decode 0b1010001000100000 = .loadIndex 0x220 := by decide
/-- encoding 1011nnnnnnnnnnnn -/
theorem test_decode_jump_v0 : decode 0b1011000100100011 = .jumpV0 0x123 := by decide
/-- encoding 1100xxxxkkkkkkkk -/
theorem test_decode_random : decode 0b1100001100001111 = .random 3 0x0F := by decide
/-- encoding 1101xxxxyyyynnnn -/
theorem test_decode_draw : decode 0b1101000100100101 = .draw 1 2 5 := by decide
/-- encoding 1110xxxx10011110 -/
theorem test_decode_skp : decode 0b1110010110011110 = .skipIfKeyDown 5 := by decide
/-- encoding 1110xxxx10100001 -/
theorem test_decode_sknp : decode 0b1110010110100001 = .skipIfKeyUp 5 := by decide
/-- encoding 1111xxxx00000111 -/
theorem test_decode_load_delay : decode 0b1111001100000111 = .loadDelay 3 := by decide
/-- encoding 1111xxxx00001010 -/
theorem test_decode_wait_key : decode 0b1111010100001010 = .waitKey 5 := by decide
/-- encoding 1111xxxx00010101 -/
theorem test_decode_set_delay : decode 0b1111000100010101 = .setDelay 1 := by decide
/-- encoding 1111xxxx00011000 -/
theorem test_decode_set_sound : decode 0b1111000100011000 = .setSound 1 := by decide
/-- encoding 1111xxxx00011110 -/
theorem test_decode_add_index : decode 0b1111110000011110 = .addIndex 0xC := by decide
/-- encoding 1111xxxx00101001 -/
theorem test_decode_load_font : decode 0b1111101000101001 = .loadFont 0xA := by decide
/-- encoding 1111xxxx00110011 -/
theorem test_decode_store_bcd : decode 0b1111101000110011 = .storeBCD 0xA := by decide
/-- encoding 1111xxxx01010101 -/
theorem test_decode_store_regs : decode 0b1111111101010101 = .storeRegs 0xF := by decide
/-- encoding 1111xxxx01100101 -/
theorem test_decode_load_regs : decode 0b1111000101100101 = .loadRegs 1 := by decide
/-- VD11, VD13, VD17, VD22, VD24: no row matches -/
theorem test_decode_noop : decode 0x5121 = .noOp 0x5121 ∧ decode 0x8AB8 = .noOp 0x8AB8 ∧ decode 0x912F = .noOp 0x912F ∧
    decode 0xE59F = .noOp 0xE59F ∧ decode 0xF030 = .noOp 0xF030 := by decide
/-- W6: the bytes A2 20 -/
theorem test_decode_bytes : decodeBytes [0xA2, 0x20, 0x12] = .ok (.loadIndex 0x220, [0x12]) := by decide

/-! ## Small states -/

/-- The reset state with some registers and I set. -/
def start (vs : List (Reg × Byte)) (i : Word := 0) : State :=
  (vs.foldl (fun s p => s.setReg p.1 p.2) State.reset).setIndex i

/-- `s` with bytes stored from an address upward. -/
def withBytes (s : State) (a : Nat) (us : List Byte) : State := s.setBytesFrom a us

/-- The state an outcome answers. -/
def after (o : Host.Outcome State Fault Refusal) : State :=
  match o with
  | .next t => t
  | .fault _ => State.reset
  | .refused _ => State.reset

/-- The state the word `w` leaves when executed in `s`. -/
def runWord (w : Word) (s : State) : State := after (exec (decode w) s)

/-- The reset parameters with a chosen shift source. -/
def withShift (c : ShiftSource) (s : State) : State := { s with cfg := { s.cfg with shiftSource := some c } }

/-- What a faulting word records, with the rest of the state as before. -/
def faulted (s : State) (c : Fault) (w : Word) : State := { s with fault := some { cause := c, pc := s.pc, word := some w } }

/-! ## Control flow (VF rows) -/

/-- VF1 -/
theorem test_sys : (runWord 0x0123 State.reset).pc = 0x202 := by decide
/-- VF27 -/
theorem test_noop : (runWord 0x8008 State.reset).pc = 0x202 := by decide
/-- VF2 -/
theorem test_jump : (runWord 0x1ABC State.reset).pc = 0xABC := by decide
/-- VF7: pc = 0x400, SP = 15 -/
theorem test_call : let t := runWord 0x2500 { State.reset with pc := 0x400, sp := 15 }
    t.stack[15] = 0x400 ∧ t.sp = 16 ∧ t.pc = 0x500 := by decide
/-- VF8: pc = 0x500, SP = 16, ACC = 3 -/
theorem test_call_overflow : let s := { State.reset with pc := 0x500, sp := 16, acc := 3 }
    runWord 0x2600 s = faulted s .stackOverflow 0x2600 := by decide
/-- VF10: SP = 2, S[1] = 0x0340 -/
theorem test_ret : let t := runWord 0x00EE { State.reset with sp := 2, stack := State.reset.stack.set 1 0x340 }
    t.pc = 0x342 ∧ t.sp = 1 ∧ t.stack[1] = 0x340 := by decide
/-- VF9: pc = 0x300, SP = 0 -/
theorem test_ret_underflow : let s := { State.reset with pc := 0x300 }
    runWord 0x00EE s = faulted s .stackUnderflow 0x00EE := by decide
/-- VF12 -/
theorem test_jump_v0_not_masked : (runWord 0xBFFF (start [(0, 0xFF)])).pc = 0x10FE := by decide
/-- VF13 -/
theorem test_jump_v0_reads_v0 : (runWord 0xB100 (start [(1, 0x77)])).pc = 0x100 := by decide
/-- VF14, VF15 -/
theorem test_se_byte : (runWord 0x3342 (start [(3, 0x42)])).pc = 0x204 ∧ (runWord 0x3342 (start [(3, 0x41)])).pc = 0x202 := by decide
/-- VF17, VF18 -/
theorem test_sne_byte : (runWord 0x4001 (start [(0, 0)])).pc = 0x204 ∧ (runWord 0x4001 (start [(0, 1)])).pc = 0x202 := by decide
/-- VF19, VF20 -/
theorem test_se_reg : (runWord 0x5120 (start [(1, 0x10), (2, 0x10)])).pc = 0x204 ∧
    (runWord 0x5120 (start [(1, 0x10), (2, 0x11)])).pc = 0x202 := by decide
/-- VF23, VF24 -/
theorem test_sne_reg : (runWord 0x9120 (start [(1, 0x10), (2, 0x11)])).pc = 0x204 ∧
    (runWord 0x9330 (start [(3, 0x55)])).pc = 0x202 := by decide

/-! ## Arithmetic and logic (VA rows) -/

/-- VA1 -/
theorem test_load_byte : (runWord 0x6AFF State.reset).reg 0xA = 0xFF := by decide
/-- VA2 -/
theorem test_add_byte_no_flag : let t := runWord 0x7001 (start [(0, 0xFF), (vf, 0x55)])
    t.reg 0 = 0 ∧ t.reg vf = 0x55 := by decide
/-- VA4 -/
theorem test_load_reg : (runWord 0x8210 (start [(1, 0x12)])).reg 2 = 0x12 := by decide
/-- VA5 -/
theorem test_or : let t := runWord 0x8121 (start [(1, 0xF0), (2, 0x0F), (vf, 0x77)])
    t.reg 1 = 0xFF ∧ t.reg vf = 0x77 := by decide
/-- VA6 -/
theorem test_and : (runWord 0x8122 (start [(1, 0xF0), (2, 0x0F)])).reg 1 = 0 := by decide
/-- VA7 -/
theorem test_xor : (runWord 0x8123 (start [(1, 0xFF), (2, 0x0F)])).reg 1 = 0xF0 := by decide
/-- VA10 -/
theorem test_add_carry : let t := runWord 0x8124 (start [(1, 0xFF), (2, 0xFF)])
    t.reg 1 = 0xFE ∧ t.reg vf = 1 := by decide
/-- VA13 -/
theorem test_add_into_vf : (runWord 0x8F14 (start [(vf, 0x10), (1, 0x20)])).reg vf = 0 := by decide
/-- VA15 -/
theorem test_sub_equal : let t := runWord 0x8125 (start [(1, 7), (2, 7)])
    t.reg 1 = 0 ∧ t.reg vf = 0 := by decide
/-- W5 -/
theorem test_sub_borrow : let t := runWord 0x8125 (start [(1, 0x05), (2, 0x0A)])
    t.reg 1 = 0xFB ∧ t.reg vf = 0 := by decide
/-- VA18 -/
theorem test_subn : let t := runWord 0x8127 (start [(1, 0x05), (2, 0x0A)])
    t.reg 1 = 0x05 ∧ t.reg vf = 1 := by decide
/-- VA19 -/
theorem test_subn_borrow : let t := runWord 0x8127 (start [(1, 0x0A), (2, 0x05)])
    t.reg 1 = 0xFB ∧ t.reg vf = 0 := by decide
/-- VA21, SHIFT_SOURCE = VX -/
theorem test_shr_vx : let t := runWord 0x8126 (withShift .vx (start [(1, 0x05), (2, 0x80)]))
    t.reg 1 = 0x02 ∧ t.reg vf = 1 := by decide
/-- VA21, SHIFT_SOURCE = VY -/
theorem test_shr_vy : let t := runWord 0x8126 (withShift .vy (start [(1, 0x05), (2, 0x80)]))
    t.reg 1 = 0x40 ∧ t.reg vf = 0 := by decide
/-- VA22, SHIFT_SOURCE = VX -/
theorem test_shl_vx : let t := runWord 0x812E (withShift .vx (start [(1, 0x81), (2, 0x01)]))
    t.reg 1 = 0x02 ∧ t.reg vf = 1 := by decide
/-- VA26, SHIFT_SOURCE = VX -/
theorem test_shl_into_vf : (runWord 0x8F0E (withShift .vx (start [(vf, 0x81)]))).reg vf = 1 := by decide
/-- VA27: rnd = 0xAB -/
theorem test_random : (runWord 0xC30F { State.reset with rndQueue := [0xAB] }).reg 3 = 0x0B := by decide

/-! ## Index and memory (VM rows) -/

/-- VM1 -/
theorem test_load_index : (runWord 0xAFFF State.reset).i = 0x0FFF := by decide
/-- VM3 -/
theorem test_add_index_wraps : let t := runWord 0xF01E (start [(0, 1)] 0xFFFF)
    t.i = 0 ∧ t.reg vf = 0 := by decide
/-- VM6 -/
theorem test_load_font : (runWord 0xF029 (start [(0, 0xFF)])).i = 0x04FB := by decide
/-- VM7 -/
theorem test_store_bcd : let t := runWord 0xF033 (start [(0, 0x9C)] 0x300)
    t.byteAt 0x300 = 1 ∧ t.byteAt 0x301 = 5 ∧ t.byteAt 0x302 = 6 ∧ t.i = 0x300 := by decide
/-- VM12 -/
theorem test_store_bcd_fault : let s := start [(0, 0x7B)] 0x0FFE
    runWord 0xF033 s = faulted s .memoryOutOfRange 0xF033 := by decide
/-- VM13 -/
theorem test_store_regs : let t := runWord 0xF055 (start [(0, 0x11)] 0x300)
    t.byteAt 0x300 = 0x11 ∧ t.byteAt 0x301 = 0 ∧ t.i = 0x301 := by decide
/-- VM16 -/
theorem test_store_regs_fault : let s := start [] 0x0FF1
    runWord 0xFF55 s = faulted s .memoryOutOfRange 0xFF55 := by decide
/-- VM18 -/
theorem test_load_regs : let t := runWord 0xF165 (withBytes (start [] 0x300) 0x300 [0xAA, 0xBB, 0xCC])
    t.reg 0 = 0xAA ∧ t.reg 1 = 0xBB ∧ t.reg 2 = 0 ∧ t.i = 0x302 := by decide
/-- VM21: glyph "0" of the font -/
theorem test_load_regs_font : let t := runWord 0xF465 State.reset
    t.reg 0 = 0xF0 ∧ t.reg 1 = 0x90 ∧ t.reg 4 = 0xF0 ∧ t.i = 5 := by decide

/-! ## Display (VX rows) -/

/-- A state with one pixel lit. -/
def withPixel (s : State) (x y : Nat) : State := s.setDisplay (Display.togglePixel s.display x y).1

/-- VX1 -/
theorem test_cls : let t := runWord 0x00E0 (withPixel (start [(vf, 7)]) 3 4)
    t.readPixel 3 4 = false ∧ t.reg vf = 7 := by decide
/-- VX6: the sprite wraps at the right edge -/
theorem test_draw_wraps : let t := runWord 0xD011 (withBytes (start [(0, 0x3E)] 0x300) 0x300 [0xFF])
    t.display[0] = 0xC00000000000003F ∧ t.display[1] = 0 ∧ t.reg vf = 0 := by decide
/-- VX10: VF is the column and the row before it is the flag -/
theorem test_draw_vf_coordinates : let t := runWord 0xDFF1 (withPixel (withBytes (start [(vf, 1)] 0x300) 0x300 [0x80]) 1 1)
    t.readPixel 1 1 = false ∧ t.reg vf = 1 := by decide

/-! ## Keys and timers (VK rows) -/

/-- VK1, VK2 -/
theorem test_skp : (runWord 0xE09E ((start [(0, 5)]).setKey 5 true)).pc = 0x204 ∧ (runWord 0xE09E (start [(0, 5)])).pc = 0x202 := by
  decide
/-- VK5 -/
theorem test_skp_fault : let s := start [(0, 0x10)]
    runWord 0xE09E s = faulted s .keyIndexOutOfRange 0xE09E := by decide
/-- VK3, VK4 -/
theorem test_sknp : (runWord 0xE0A1 (start [(0, 5)])).pc = 0x204 ∧ (runWord 0xE0A1 ((start [(0, 5)]).setKey 5 true)).pc = 0x202 := by
  decide
/-- VK6 -/
theorem test_sknp_fault : let s := start [(0, 0xFF)]
    runWord 0xE0A1 s = faulted s .keyIndexOutOfRange 0xE0A1 := by decide
/-- VK8 -/
theorem test_load_delay : (runWord 0xF307 (State.reset.setDT 0x3C)).reg 3 = 0x3C := by decide
/-- VK14 -/
theorem test_wait_key_waits : runWord 0xF50A State.reset = State.reset := by decide
/-- VK15 -/
theorem test_wait_key_takes : let t := runWord 0xF50A (State.reset.setLK (some 0xB))
    t.reg 5 = 0x0B ∧ t.lk = none ∧ t.pc = 0x202 := by decide
/-- VK10 -/
theorem test_set_delay : (runWord 0xF015 (start [(0, 0x0A)])).dt = 0x0A := by decide
/-- VK12 -/
theorem test_set_sound : let t := runWord 0xF118 (start [(1, 2)])
    t.st = 2 ∧ t.soundOn = true := by decide

/-! ## The driver and the host (VC rows) -/

/-- VC1: ACC = 8, DT = 1, ST = 2, word 0x0000 -/
theorem test_tick : let t := after (step { State.reset with acc := 8, dt := 1, st := 2 })
    t.pc = 0x202 ∧ t.acc = 0 ∧ t.dt = 0 ∧ t.st = 1 := by decide
/-- VC4: a faulting step neither counts nor ticks -/
theorem test_fault_does_not_count : let s := withBytes { State.reset with acc := 8, dt := 5 } 0x200 [0x00, 0xEE]
    after (step s) = faulted s .stackUnderflow 0x00EE := by decide
/-- VC6 -/
theorem test_fetch_last_word : let s := withBytes { State.reset with pc := 0xFFE } 0xFFE [0x12, 0x00]
    (after (step s)).pc = 0x200 := by decide
/-- VC7 -/
theorem test_fetch_fault : let s := { State.reset with pc := 0xFFF }
    after (step s) = { s with fault := some { cause := .fetchOutOfRange, pc := 0xFFF, word := none } } := by decide
/-- W6: a table word placed at the next fetch runs -/
theorem test_with_fetch_word : let t := after (step (State.reset.withFetchWord 16 0xA220))
    t.i = 0x220 ∧ t.pc = 0x202 ∧ t.acc = 1 := by decide
/-- `step(s, rnd)`: VA27 as a step -/
theorem test_step_with : (after (stepWith 0xAB (withBytes State.reset 0x200 [0xC3, 0x0F]))).reg 3 = 0x0B := by decide

/-! ## Witnesses: for each obligation with hypotheses, concrete states and operands that meet them all, each clause at
the ends of its range -/

theorem witness_DecodeOfEncodeIsIdentity :
    (Instr.sys 0x0DF).wellFormed = true ∧ (Instr.sys 0x0E1).wellFormed = true ∧ (Instr.noOp 0x5121).wellFormed = true := by decide

theorem witness_OpcodeMapRows : (0x0ED : Addr12) ≠ 0x0E0 ∧ (0x0ED : Addr12) ≠ 0x0EE ∧ decode 0x00ED = .sys 0x0ED := by decide

/-- pc at its last fetchable value, an instruction there (VC6) -/
theorem witness_StepRunsTheDecodedInstruction : let s := withBytes { State.reset with pc := 0xFFE } 0xFFE [0x12, 0x00]
    s.fault = none ∧ s.pc.toNat ≤ 0x0FFE ∧
    decodeBytes [s.byteAt s.pc.toNat, s.byteAt (s.pc.toNat + 1)] = .ok (.jump 0x200, []) ∧ (Instr.jump 0x200).wellFormed = true := by
  decide

theorem witness_FetchBeyondMemoryFaults : let s := { State.reset with pc := 0xFFF }
    s.fault = none ∧ 0x0FFE < s.pc.toNat := by decide

theorem witness_HaltedCoreChangesNothing : (faulted State.reset .stackUnderflow 0x00EE).fault ≠ none := by decide

/-- both clauses, and every cause an instruction can raise -/
theorem witness_FaultsAreExactlyTheFaultTable :
    faultOf (.callSubroutine 0x300) { State.reset with sp := 15 } = none ∧
    faultOf (.callSubroutine 0x300) { State.reset with sp := 16 } = some .stackOverflow ∧
    faultOf .ret { State.reset with sp := 1 } = none ∧ faultOf .ret State.reset = some .stackUnderflow ∧
    faultOf (.draw 0 0 3) (start [] 0x0FFD) = none ∧ faultOf (.draw 0 0 3) (start [] 0x0FFE) = some .memoryOutOfRange ∧
    faultOf (.draw 0 0 0) (start [] 0xFFFF) = none ∧
    faultOf (.storeBCD 0) (start [] 0x0FFD) = none ∧ faultOf (.storeBCD 0) (start [] 0x0FFE) = some .memoryOutOfRange ∧
    faultOf (.storeRegs 15) (start [] 0x0FF0) = none ∧ faultOf (.storeRegs 15) (start [] 0x0FF1) = some .memoryOutOfRange ∧
    faultOf (.loadRegs 1) (start [] 0x0FFE) = none ∧ faultOf (.loadRegs 1) (start [] 0x0FFF) = some .memoryOutOfRange ∧
    faultOf (.skipIfKeyDown 0) (start [(0, 0x0F)]) = none ∧ faultOf (.skipIfKeyDown 0) (start [(0, 0x10)]) = some .keyIndexOutOfRange ∧
    faultOf (.skipIfKeyUp 0) (start [(0, 0x0F)]) = none ∧ faultOf (.skipIfKeyUp 0) (start [(0, 0x10)]) = some .keyIndexOutOfRange := by
  decide

theorem witness_FaultingStepCommitsNothing : let s := withBytes State.reset 0x200 [0x00, 0xEE]
    s.fault = none ∧ s.pc.toNat ≤ 0x0FFE ∧ faultOf (decode s.fetchWord) s = some .stackUnderflow := by decide

/-- a safe and an unsafe running state -/
theorem witness_StepFaultsExactlyWhenUnsafe : State.reset.fault = none ∧ safeToStep State.reset = true ∧
    (let s := withBytes State.reset 0x200 [0x00, 0xEE]; s.fault = none ∧ safeToStep s = false) := by decide

/-- a storing instruction at the top of memory, and what it leaves -/
theorem witness_InstructionFrames : let s := start [(0, 0x7B)] 0x0FFD
    faultOf (.storeBCD 0) s = none ∧ exec (.storeBCD 0) s = .next (runWord 0xF033 s) ∧
    storesTo (.storeBCD 0) s 0x0FFC = false ∧ writesReg (.storeBCD 0) 0 = false :=
  ⟨by decide, rfl, by decide, by decide⟩

/-- the invariant at a state with one return address in use, at its bound -/
theorem oneCall_inv : State.Inv { State.reset with sp := 1, stack := State.reset.stack.set 0 0xFFE, pc := 0xFFE } where
  memory := by decide
  acc := by decide
  pc := by decide
  stack := by decide
  fault := by intro r h; cases h

theorem witness_NextPcTable : let s := { State.reset with sp := 1, stack := State.reset.stack.set 0 0xFFE, pc := 0xFFE }
    s.Inv ∧ s.pc.toNat ≤ 0x0FFE ∧ faultOf .ret s = none := ⟨oneCall_inv, by decide, by decide⟩

/-- at the ratio and below it -/
theorem witness_CompletedStepCountsAndTicks :
    (let s := { State.reset with acc := 8, dt := 1 }
     s.fault = none ∧ s.pc.toNat ≤ 0x0FFE ∧ exec (decode s.fetchWord) s = .next { s with pc := 0x202 } ∧
     s.acc + 1 = s.cfg.cyclesPerTick) ∧
    (let s := { State.reset with acc := 7, dt := 5 }
     s.fault = none ∧ s.pc.toNat ≤ 0x0FFE ∧ exec (decode s.fetchWord) s = .next { s with pc := 0x202 } ∧
     s.acc + 1 ≠ s.cfg.cyclesPerTick) :=
  ⟨⟨rfl, by decide, rfl, by decide⟩, rfl, by decide, rfl, by decide⟩

theorem witness_TimersCountDownExactly : State.reset.acc < State.reset.cfg.cyclesPerTick ∧
    (let s := { State.reset with acc := 8, dt := 10 }; s.acc < s.cfg.cyclesPerTick) := by decide

theorem witness_FetchSeesStores : Memory.wf State.reset.cfg.font State.reset.mem = true ∧
    (let s := withBytes State.reset 0x202 [0x12, 0x00]; Memory.wf s.cfg.font s.mem = true) := by decide

/-- a pc that stays and a pc that moves -/
theorem witness_PlacedWordRunsNext : (let s := { State.reset with pc := 0xFFE };
      Memory.wf s.cfg.font s.mem = true ∧ s.pc.toNat ≤ 0x0FFE ∧ (s.withFetchWord 16 0xA220).pc = 0xFFE) ∧
    (let s := { State.reset with pc := 0xFFF };
      Memory.wf s.cfg.font s.mem = true ∧ ¬ s.pc.toNat ≤ 0x0FFE ∧ (s.withFetchWord 16 0xA220).pc = 0x200) := by decide

theorem witness_OnlyRandomReadsTheRandomByte : ∀ x kk, decode State.reset.fetchWord ≠ .random x kk := by
  intro x kk h
  have : decode State.reset.fetchWord = .sys 0 := by decide
  rw [this] at h
  cases h

theorem witness_ResetSatisfiesInvariant : 1 ≤ { Config.standard with cyclesPerTick := 1 }.cyclesPerTick := by decide

/-- The invariant holds at reset, whose step completes. -/
theorem reset_inv : State.reset.Inv where
  memory := by decide
  acc := by decide
  pc := by decide
  stack := by decide
  fault := by intro r h; cases h

theorem witness_StepKeepsInvariant : State.reset.Inv ∧ step State.reset = .next { State.reset with pc := 0x202, acc := 1, draws := 1 } :=
  ⟨reset_inv, rfl⟩

theorem witness_RunKeepsInvariant : State.reset.Inv ∧
    run [.setKey 3 true, .reset] State.reset = .next (State.reset.setKey 3 true).resetAction := ⟨reset_inv, rfl⟩

theorem witness_CanonicalMemoryIsUnique : Memory.wf Config.standardFont [(0x0, 0x01), (0xFFF, 0x02)] = true ∧
    ∀ a, Memory.read Config.standardFont [(0x0, 0x01), (0xFFF, 0x02)] a = Memory.read Config.standardFont [(0x0, 0x01), (0xFFF, 0x02)] a :=
  ⟨by decide, fun _ => rfl⟩

/-- the first and the last row of R293's table, and the first byte above the font -/
theorem witness_ResetState : (0x000, [0xF0, 0x90, 0x90, 0x90, 0xF0]) ∈ defaultGlyphs ∧
    (0x04B, [0xF0, 0x80, 0xF0, 0x80, 0x80]) ∈ defaultGlyphs ∧ 80 ≤ 80 ∧ State.reset.byteAt 80 = 0 := by decide

theorem witness_SysOnlyAdvances : (0x0DF : Addr12) ≠ 0x0E0 ∧ (0x0DF : Addr12) ≠ 0x0EE ∧ decode 0x00DF = .sys 0x0DF := by decide

theorem witness_NoOpOnlyAdvances : unmatched 0x5001 = true ∧ unmatched 0xFFFF = true := by decide

/-- SP = 0, SP = 15 and SP = 16 -/
theorem witness_CallPushesItsOwnAddress : State.reset.sp.val < 16 ∧ { State.reset with sp := 15 }.sp.val < 16 ∧
    { State.reset with sp := 16 }.sp.val = 16 := by decide

/-- SP = 1, SP = 16 and SP = 0 -/
theorem witness_ReturnPopsAndAdvances : { State.reset with sp := 1 }.sp.val = (0 : Fin 16).val + 1 ∧
    { State.reset with sp := 16 }.sp.val = (15 : Fin 16).val + 1 ∧ State.reset.sp.val = 0 := by decide

/-- W7 with the deepest free slot -/
theorem witness_CallThenReturnComesBack :
    let s := withBytes (withBytes { State.reset with sp := 15 } 0x200 [0x23, 0x00]) 0x300 [0x00, 0xEE]
    s.fault = none ∧ s.pc.toNat ≤ 0x0FFE ∧ (0x300 : Addr12).toNat ≤ 0x0FFE ∧ s.fetchWord = 0x2300 ∧
    s.byteAt 0x300 = 0x00 ∧ s.byteAt 0x301 = 0xEE ∧ s.sp.val = (15 : Fin 16).val := by decide

/-- a register other than the destination, and the last bit -/
theorem witness_LoadsAndImmediateAdd : (15 : Reg) ≠ 14 := by decide
theorem witness_BitwiseLogic : 7 < 8 ∧ (15 : Reg) ≠ 14 := by decide
theorem witness_TimerTransfers : (15 : Reg) ≠ 14 := by decide

/-- a destination other than VF, and a register that is neither -/
theorem witness_AddSetsCarry : (14 : Reg) ≠ vf ∧ (0 : Reg) ≠ 14 ∧ (0 : Reg) ≠ vf := by decide
theorem witness_SubSetsStrictNoBorrow : (14 : Reg) ≠ vf ∧ (0 : Reg) ≠ 14 ∧ (0 : Reg) ≠ vf := by decide
theorem witness_SubNSetsStrictNoBorrow : (14 : Reg) ≠ vf ∧ (0 : Reg) ≠ 14 ∧ (0 : Reg) ≠ vf := by decide

theorem witness_ShiftRightByOne : (withShift .vy State.reset).cfg.shiftSource = some .vy ∧ (14 : Reg) ≠ vf := by decide
theorem witness_ShiftLeftByOne : (withShift .vx State.reset).cfg.shiftSource = some .vx ∧ (14 : Reg) ≠ vf := by decide

theorem witness_RandomMasksTheStepsByte : { State.reset with rndQueue := [0xAB, 0x01] }.rndQueue = 0xAB :: [0x01] := by decide

theorem witness_StoreBCDWritesThreeDigits :
    (let s := start [(0, 0x7B)] 0x0FFD; Memory.wf s.cfg.font s.mem = true ∧ s.i.toNat + 2 ≤ 0x0FFF) ∧
    (let s := start [(0, 0x7B)] 0x0FFE; Memory.wf s.cfg.font s.mem = true ∧ 0x0FFF < s.i.toNat + 2) := by decide

theorem witness_StoreRegsCopiesUpToX :
    (let s := start [] 0x0FF0; Memory.wf s.cfg.font s.mem = true ∧ s.i.toNat + (15 : Reg).val ≤ 0x0FFF) ∧
    (let s := start [] 0x0FF1; Memory.wf s.cfg.font s.mem = true ∧ 0x0FFF < s.i.toNat + (15 : Reg).val) := by decide

theorem witness_LoadRegsCopiesUpToX : (start [] 0x0FFE).i.toNat + (1 : Reg).val ≤ 0x0FFF ∧
    0x0FFF < (start [] 0x0FFF).i.toNat + (1 : Reg).val := by decide

/-- the pixel toggled and a pixel left, with coordinates that wrap -/
theorem witness_TogglePixelFlipsTheWrappedPixel : ((10 : Fin 64).val = 74 % 64 ∧ (5 : Fin 32).val = 37 % 32) ∧
    ¬ ((11 : Fin 64).val = 74 % 64 ∧ (5 : Fin 32).val = 37 % 32) := by decide

/-- the last sprite inside memory, the empty sprite beyond it, and the first sprite that leaves it -/
theorem witness_DrawXorsTheSprite : ¬ (0 < (3 : Rows).val ∧ 0x0FFF < (start [] 0x0FFD).i.toNat + (3 : Rows).val - 1) ∧
    ¬ (0 < (0 : Rows).val ∧ 0x0FFF < (start [] 0xFFFF).i.toNat + (0 : Rows).val - 1) ∧
    (0 < (3 : Rows).val ∧ 0x0FFF < (start [] 0x0FFE).i.toNat + (3 : Rows).val - 1) := by decide

theorem witness_DrawTwiceRestoresTheDisplay : let s := withBytes (start [] 0x300) 0x300 [0x80]
    (0 : Reg) ≠ vf ∧ faultOf (.draw 0 1 1) s = none ∧ exec (.draw 0 1 1) s = .next (runWord 0xD011 s) ∧
    exec (.draw 0 1 1) (runWord 0xD011 s) = .next (runWord 0xD011 (runWord 0xD011 s)) :=
  ⟨by decide, by decide, rfl, rfl⟩

/-- the last key, and the first value that names none -/
theorem witness_SkipsOnAKey : ((start [(0, 0x0F)]).reg 0).toNat = (15 : Key).val ∧ 0x0F < ((start [(0, 0x10)]).reg 0).toNat := by decide

theorem witness_WaitKeyConsumesTheLatch : State.reset.lk = none ∧ (State.reset.setLK (some 15)).lk = some 15 := by decide

/-- W8 -/
theorem witness_KeyWaitHoldsUntilAPress : let s := withBytes State.reset 0x200 [0xF3, 0x0A]
    s.fault = none ∧ s.pc.toNat ≤ 0x0FFE ∧ s.lk = none ∧ s.fetchWord = BitVec.ofNat 16 (0xF00A + 256 * (3 : Reg).val) := by decide

/-- VC11 and VC10: the longest image accepted and the shortest rejected -/
theorem witness_LoadPlacesTheImage : Memory.wf State.reset.cfg.font State.reset.mem = true ∧
    (List.replicate 0xE00 (1 : Byte)).length ≤ 0xE00 ∧ 0xE00 < (List.replicate 0xE01 (1 : Byte)).length := by
  simp only [List.length_replicate]
  decide

/-- a halted core and each kind of action other than reset -/
theorem witness_OnlyResetClearsAFault : let s := faulted State.reset .stackUnderflow 0x00EE
    s.fault ≠ none ∧ HostAction.step 0 ≠ .reset ∧ HostAction.setKey 1 true ≠ .reset ∧ HostAction.load [] ≠ .reset ∧
    perform (.step 0) s = .next s ∧ perform (.setKey 1 true) s = .next (s.setKey 1 true) ∧ perform (.load []) s = .next (s.load []) :=
  ⟨by decide, by decide, by decide, by decide, rfl, rfl, rfl⟩

end Sys2Proof.Tests
end

section
/-! Proofs of spec/40_flow.md: SYS, JP and the skips on a byte. First the facts about decoding and the pc they rest on. -/

namespace Sys2Proof

/-! ### The rows of the opcode map these instructions stand in (R76) -/

/-- The opcode map writes x before the byte with the factor on the left; the encoder writes it on the right. -/
theorem ofNat_eq_wordXKK (op : Nat) (x : Reg) (kk : Byte) :
    BitVec.ofNat 16 (op * 4096 + 256 * x.val + kk.toNat) = wordXKK op x kk := by
  rw [wordXKK, Nat.mul_comm 256]

/-- In the 0 space only the words of CLS and RET are taken before the major digit is looked at (R75). -/
theorem decode_sys {nnn : Addr12} (hcls : nnn ≠ 0x0E0) (hret : nnn ≠ 0x0EE) :
    decode (wordNNN 0x0 nnn) = .sys nnn := by
  have hw : (wordNNN 0x0 nnn).toNat = nnn.toNat := by rw [wordNNN_toNat]; omega
  have hcls' : nnn.toNat ≠ 0xE0 := fun h => hcls (BitVec.eq_of_toNat_eq h)
  have hret' : nnn.toNat ≠ 0xEE := fun h => hret (BitVec.eq_of_toNat_eq h)
  have hop : fieldOp (wordNNN 0x0 nnn) = 0x0 := by rw [fieldOp_eq]; omega
  have hnnn : fieldNNN (wordNNN 0x0 nnn) = nnn := fieldNNN_of (by omega)
  rw [decode_eq_major (by omega) (by omega)]
  simp only [decodeMajor, hop, hnnn]

theorem decode_jump (nnn : Addr12) : decode (wordNNN 0x1 nnn) = .jump nnn := by
  obtain ⟨hmajor, hop, hnnn⟩ := decode_wordNNN (op := 0x1) (by decide) (by decide) nnn
  simp only [hmajor, decodeMajor, hop, hnnn]

theorem decode_skipIfEqualByte (x : Reg) (kk : Byte) : decode (wordXKK 0x3 x kk) = .skipIfEqualByte x kk := by
  obtain ⟨hmajor, hop, hx, hkk⟩ := decode_wordXKK (op := 0x3) (by decide) (by decide) x kk
  simp only [hmajor, decodeMajor, hop, hx, hkk]

theorem decode_skipIfNotEqualByte (x : Reg) (kk : Byte) : decode (wordXKK 0x4 x kk) = .skipIfNotEqualByte x kk := by
  obtain ⟨hmajor, hop, hx, hkk⟩ := decode_wordXKK (op := 0x4) (by decide) (by decide) x kk
  simp only [hmajor, decodeMajor, hop, hx, hkk]

end Sys2Proof

namespace Sys2Proof.Machine

/-! ### What setting the pc and skipping do to the whole state -/

/-- Setting the pc changes no other element. -/
theorem keptExcept_setPc (s : State) (a : Word) : keptExcept [.pc] s (s.setPc a) := by
  intro e he
  cases e with
  | pc => exact absurd (List.mem_singleton.2 rfl) he
  | mem => exact State.byteAt_congr (State.setPc_mem s a) (State.setPc_cfg s a)
  | v => exact State.reg_congr (State.setPc_v s a)
  | rnd => exact ⟨State.setPc_rndQueue s a, State.setPc_draws s a⟩
  | i | stack | sp | dt | st | key | lk | acc | display | fault | cfg => rfl

/-- A skip whose test decides `p` steps 4 where `p` holds and 2 elsewhere (R104). -/
theorem State.skipIf_eq_of_iff {c : Bool} {p : Prop} [Decidable p] (h : c = true ↔ p) (s : State) :
    s.skipIf c = { s with pc := if p then s.pc + 4 else s.pc + 2 } := by
  simp only [State.skipIf, State.setPc, h]

theorem exec_skipIfEqualByte (x : Reg) (kk : Byte) (s : State) :
    exec (.skipIfEqualByte x kk) s = .next (s.skipIf (s.reg x == kk)) := rfl

theorem exec_skipIfNotEqualByte (x : Reg) (kk : Byte) (s : State) :
    exec (.skipIfNotEqualByte x kk) s = .next (s.skipIf (s.reg x != kk)) := rfl

/-! ### The obligations -/

/-- Settles O26: SYS takes every word of the 0 space but two (`decode_sys`), and its execute is the standard advance. -/
theorem sysOnlyAdvances : Obligations.SysOnlyAdvances := by
  intro nnn s
  refine ⟨fun hcls hret => ?_, rfl⟩
  have hword : BitVec.ofNat 16 nnn.toNat = wordNNN 0x0 nnn := by rw [wordNNN, Nat.zero_mul, Nat.zero_add]
  rw [hword, decode_sys hcls hret]

/-- Settles O28: the next state is the old one with its pc set, so `keptExcept_setPc` is the frame. -/
theorem jumpSetsPc : Obligations.JumpSetsPc := fun nnn s =>
  ⟨decode_jump nnn, s.setPc (addr nnn), rfl, addr_toNat nnn, keptExcept_setPc s (addr nnn)⟩

/-- Settles O33: both skips are `skipIf`, whose test decides the equality for SE and the inequality for SNE. -/
theorem skipsOnAByte : Obligations.SkipsOnAByte := by
  intro x kk s
  refine ⟨?_, ?_, ?_, ?_⟩
  · exact (congrArg decode (ofNat_eq_wordXKK 0x3 x kk)).trans (decode_skipIfEqualByte x kk)
  · exact (congrArg decode (ofNat_eq_wordXKK 0x4 x kk)).trans (decode_skipIfNotEqualByte x kk)
  · rw [exec_skipIfEqualByte, State.skipIf_eq_of_iff beq_iff_eq]
  · rw [exec_skipIfNotEqualByte, State.skipIf_eq_of_iff bne_iff_ne]

end Sys2Proof.Machine
end

section
/-! Proofs of spec/41_alu.md: the loads into a register and the immediate ADD. First the rows of the opcode map, then
what writing one register and advancing does to the whole state. -/

namespace Sys2Proof

/-! ### The rows of the opcode map these instructions stand in (R76) -/

/-- The opcode map writes the registers with the factor on the left, and the digit n = 0 not at all. -/
theorem ofNat_eq_wordXYN_zero (op : Nat) (x y : Reg) :
    BitVec.ofNat 16 (op * 4096 + 256 * x.val + 16 * y.val) = wordXYN op x y 0 := by
  rw [wordXYN, Nat.mul_comm 256, Nat.mul_comm 16, Nat.add_zero]

theorem decode_loadByte (x : Reg) (kk : Byte) : decode (wordXKK 0x6 x kk) = .loadByte x kk := by
  obtain ⟨hmajor, hop, hx, hkk⟩ := decode_wordXKK (op := 0x6) (by decide) (by decide) x kk
  simp only [hmajor, decodeMajor, hop, hx, hkk]

theorem decode_addByte (x : Reg) (kk : Byte) : decode (wordXKK 0x7 x kk) = .addByte x kk := by
  obtain ⟨hmajor, hop, hx, hkk⟩ := decode_wordXKK (op := 0x7) (by decide) (by decide) x kk
  simp only [hmajor, decodeMajor, hop, hx, hkk]

theorem decode_loadReg (x y : Reg) : decode (wordXYN 0x8 x y 0) = .loadReg x y := by
  obtain ⟨hmajor, hop, hx, hy, hn⟩ := decode_wordXYN (op := 0x8) (n := 0) (by decide) (by decide) (by decide) x y
  simp only [hmajor, decodeMajor, decodeAlu, hop, hx, hy, hn]

end Sys2Proof

namespace Sys2Proof.Machine

/-! ### What writing one register and advancing does to the whole state -/

/-- Writing a register and advancing changes the registers and the pc, and no other element. -/
theorem keptExcept_advance_setReg (s : State) (x : Reg) (u : Byte) : keptExcept [.v, .pc] s (s.setReg x u).advance := by
  intro e he
  cases e with
  | v | pc => exact absurd (by decide) he
  | mem => exact State.byteAt_congr rfl rfl
  | rnd => exact ⟨rfl, rfl⟩
  | i | stack | sp | dt | st | key | lk | acc | display | fault | cfg => rfl

/-- An execute that is one register write and the standard advance leaves the written value in that register, and
changes no other register and no other element but the pc. -/
theorem exec_of_setReg_advance {i : Instr} {s : State} {x : Reg} {u : Byte} (h : exec i s = .next (s.setReg x u).advance) :
    ∃ t, exec i s = .next t ∧ t.reg x = u ∧ (∀ r, r ≠ x → t.reg r = s.reg r) ∧ t.pc = s.pc + 2 ∧
      keptExcept [.v, .pc] s t := by
  have hreg (r : Reg) : (s.setReg x u).advance.reg r = (s.setReg x u).reg r := State.reg_congr (State.advance_v _) r
  exact ⟨_, h, (hreg x).trans (State.reg_setReg_same s x u), fun r hr => (hreg r).trans (State.reg_setReg_other hr u),
    State.advance_pc _, keptExcept_advance_setReg s x u⟩

theorem exec_loadByte (x : Reg) (kk : Byte) (s : State) : exec (.loadByte x kk) s = .next (s.setReg x kk).advance := rfl

theorem exec_addByte (x : Reg) (kk : Byte) (s : State) :
    exec (.addByte x kk) s = .next (s.setReg x (s.reg x + kk)).advance := rfl

theorem exec_loadReg (x y : Reg) (s : State) : exec (.loadReg x y) s = .next (s.setReg x (s.reg y)).advance := rfl

/-! ### The obligation -/

/-- Settles O35: each of the three is one register write and the standard advance (`exec_of_setReg_advance`), and the
byte sum of ADD is the sum modulo 256. -/
theorem loadsAndImmediateAdd : Obligations.LoadsAndImmediateAdd := by
  refine ⟨fun x kk s => ⟨?_, exec_of_setReg_advance (exec_loadByte x kk s)⟩, fun x kk s => ⟨?_, ?_⟩,
    fun x y s => ⟨?_, exec_of_setReg_advance (exec_loadReg x y s)⟩⟩
  · exact (congrArg decode (ofNat_eq_wordXKK 0x6 x kk)).trans (decode_loadByte x kk)
  · exact (congrArg decode (ofNat_eq_wordXKK 0x7 x kk)).trans (decode_addByte x kk)
  · obtain ⟨t, ht, hsum, hframe⟩ := exec_of_setReg_advance (exec_addByte x kk s)
    exact ⟨t, ht, by rw [hsum, BitVec.toNat_add], hframe⟩
  · exact (congrArg decode (ofNat_eq_wordXYN_zero 0x8 x y)).trans (decode_loadReg x y)

end Sys2Proof.Machine
end

section
/-! Proofs of spec/42_index_memory.md: LD I, nnn. First its row of the opcode map, then what writing I and advancing does
to the whole state. -/

namespace Sys2Proof

/-- LD I, nnn is the row of major digit A (R76). -/
theorem decode_loadIndex (nnn : Addr12) : decode (wordNNN 0xA nnn) = .loadIndex nnn := by
  obtain ⟨hmajor, hop, hnnn⟩ := decode_wordNNN (op := 0xA) (by decide) (by decide) nnn
  simp only [hmajor, decodeMajor, hop, hnnn]

end Sys2Proof

namespace Sys2Proof.Machine

/-! ### What writing I and advancing does to the whole state -/

/-- Writing I and advancing changes I and the pc, and no other element. -/
theorem keptExcept_advance_setIndex (s : State) (a : Word) : keptExcept [.i, .pc] s (s.setIndex a).advance := by
  intro e he
  cases e with
  | i | pc => exact absurd (by decide) he
  | mem => exact State.byteAt_congr rfl rfl
  | v => exact State.reg_congr rfl
  | rnd => exact ⟨rfl, rfl⟩
  | stack | sp | dt | st | key | lk | acc | display | fault | cfg => rfl

theorem exec_loadIndex (nnn : Addr12) (s : State) :
    exec (.loadIndex nnn) s = .next (s.setIndex (addr nnn)).advance := rfl

/-! ### The obligation -/

/-- Settles O43: the execute writes the zero-extended address (`addr_toNat`) to I and advances, and
`keptExcept_advance_setIndex` is the frame. -/
theorem loadIndexSetsI : Obligations.LoadIndexSetsI := fun nnn s =>
  ⟨decode_loadIndex nnn, _, exec_loadIndex nnn s, addr_toNat nnn, State.advance_pc _,
    keptExcept_advance_setIndex s (addr nnn)⟩

end Sys2Proof.Machine
end

section
/-! Proofs of spec/43_display.md: CLS and `toggle_pixel`. First the coordinates a pixel wraps to, then what writing the
display and advancing does to the whole state. -/

namespace Sys2Proof.Machine

/-! ### The pixel that coordinates wrap to (R192) -/

theorem eq_wrapX_iff {x : Fin 64} {px : Nat} : x = wrapX px ↔ x.val = px % 64 := Fin.ext_iff

theorem eq_wrapY_iff {y : Fin 32} {py : Nat} : y = wrapY py ↔ y.val = py % 32 := Fin.ext_iff

/-! ### What writing the display and advancing does to the whole state -/

/-- Writing the display and advancing changes the display and the pc, and no other element. -/
theorem keptExcept_advance_setDisplay (s : State) (d : Display) :
    keptExcept [.display, .pc] s (s.setDisplay d).advance := by
  intro e he
  cases e with
  | display | pc => exact absurd (by decide) he
  | mem => exact State.byteAt_congr rfl rfl
  | v => exact State.reg_congr rfl
  | rnd => exact ⟨rfl, rfl⟩
  | i | stack | sp | dt | st | key | lk | acc | fault | cfg => rfl

theorem exec_clearScreen (s : State) : exec .clearScreen s = .next (s.setDisplay Display.clear).advance := rfl

/-! ### The obligations -/

/-- Settles O49: the execute writes the cleared display (`Display.pixel_clear`) and advances, and
`keptExcept_advance_setDisplay` is the frame. -/
theorem clearScreenClearsEveryPixel : Obligations.ClearScreenClearsEveryPixel := fun s =>
  ⟨by decide, _, exec_clearScreen s, Display.pixel_clear, State.advance_pc _,
    keptExcept_advance_setDisplay s Display.clear⟩

/-- Settles O50: `Display.pixel_togglePixel` flips the pixel at the wrapped coordinates and no other, and the value
reported is that pixel's old one. -/
theorem togglePixelFlipsTheWrappedPixel : Obligations.TogglePixelFlipsTheWrappedPixel := by
  intro d px py x y
  rw [Display.pixel_togglePixel, Display.togglePixel_snd]
  refine ⟨fun hx hy => ?_, fun hother => ?_⟩
  · obtain rfl := eq_wrapX_iff.2 hx
    obtain rfl := eq_wrapY_iff.2 hy
    exact ⟨if_pos ⟨rfl, rfl⟩, rfl⟩
  · exact if_neg fun ⟨hx, hy⟩ => hother ⟨eq_wrapX_iff.1 hx, eq_wrapY_iff.1 hy⟩

end Sys2Proof.Machine
end

section
/-! Proofs of spec/44_keys_timers.md: the transfers to and from the timers. First their rows of the opcode map, then what
writing a timer and advancing does to the whole state. -/

namespace Sys2Proof

/-! ### The rows of the opcode map these instructions stand in (R76) -/

/-- The opcode map writes a row whose byte is fixed as one number, the major digit and the byte in it. -/
theorem ofNat_eq_wordXKK_of_fixed {base op : Nat} {kk : Byte} (h : base = op * 4096 + kk.toNat) (x : Reg) :
    BitVec.ofNat 16 (base + 256 * x.val) = wordXKK op x kk := by
  rw [h, Nat.add_right_comm, ofNat_eq_wordXKK]

/-- A word of major digit F decodes in the `FxNN` family, and shows its register and byte. -/
theorem decode_wordXKK_misc (x : Reg) (kk : Byte) :
    decode (wordXKK 0xF x kk) = decodeMisc (wordXKK 0xF x kk) ∧ fieldX (wordXKK 0xF x kk) = x ∧
      fieldKK (wordXKK 0xF x kk) = kk := by
  obtain ⟨hmajor, hop, hx, hkk⟩ := decode_wordXKK (op := 0xF) (by decide) (by decide) x kk
  exact ⟨by simp only [hmajor, decodeMajor, hop], hx, hkk⟩

theorem decode_loadDelay (x : Reg) : decode (wordXKK 0xF x 0x07) = .loadDelay x := by
  obtain ⟨hmisc, hx, hkk⟩ := decode_wordXKK_misc x 0x07
  simp only [hmisc, decodeMisc, hx, hkk]
  rfl

theorem decode_setDelay (x : Reg) : decode (wordXKK 0xF x 0x15) = .setDelay x := by
  obtain ⟨hmisc, hx, hkk⟩ := decode_wordXKK_misc x 0x15
  simp only [hmisc, decodeMisc, hx, hkk]
  rfl

theorem decode_setSound (x : Reg) : decode (wordXKK 0xF x 0x18) = .setSound x := by
  obtain ⟨hmisc, hx, hkk⟩ := decode_wordXKK_misc x 0x18
  simp only [hmisc, decodeMisc, hx, hkk]
  rfl

end Sys2Proof

namespace Sys2Proof.Machine

/-! ### What writing a timer and advancing does to the whole state -/

/-- Writing the delay timer and advancing changes that timer and the pc, and no other element. -/
theorem keptExcept_advance_setDT (s : State) (u : Byte) : keptExcept [.dt, .pc] s (s.setDT u).advance := by
  intro e he
  cases e with
  | dt | pc => exact absurd (by decide) he
  | mem => exact State.byteAt_congr rfl rfl
  | v => exact State.reg_congr rfl
  | rnd => exact ⟨rfl, rfl⟩
  | i | stack | sp | st | key | lk | acc | display | fault | cfg => rfl

/-- Writing the sound timer and advancing changes that timer and the pc, and no other element. -/
theorem keptExcept_advance_setST (s : State) (u : Byte) : keptExcept [.st, .pc] s (s.setST u).advance := by
  intro e he
  cases e with
  | st | pc => exact absurd (by decide) he
  | mem => exact State.byteAt_congr rfl rfl
  | v => exact State.reg_congr rfl
  | rnd => exact ⟨rfl, rfl⟩
  | i | stack | sp | dt | key | lk | acc | display | fault | cfg => rfl

theorem exec_loadDelay (x : Reg) (s : State) : exec (.loadDelay x) s = .next (s.setReg x s.dt).advance := rfl

theorem exec_setDelay (x : Reg) (s : State) : exec (.setDelay x) s = .next (s.setDT (s.reg x)).advance := rfl

theorem exec_setSound (x : Reg) (s : State) : exec (.setSound x) s = .next (s.setST (s.reg x)).advance := rfl

/-! ### The obligation -/

/-- Settles O55: LD Vx, DT is one register write and the standard advance (`exec_of_setReg_advance`); the two writes of
a timer have `keptExcept_advance_setDT` and `keptExcept_advance_setST` as their frames. -/
theorem timerTransfers : Obligations.TimerTransfers := by
  intro x s
  refine ⟨⟨?_, exec_of_setReg_advance (exec_loadDelay x s)⟩,
    ⟨?_, _, exec_setDelay x s, rfl, State.advance_pc _, keptExcept_advance_setDT s (s.reg x)⟩,
    ⟨?_, _, exec_setSound x s, rfl, State.advance_pc _, keptExcept_advance_setST s (s.reg x)⟩⟩
  · exact (congrArg decode (ofNat_eq_wordXKK_of_fixed (by decide) x)).trans (decode_loadDelay x)
  · exact (congrArg decode (ofNat_eq_wordXKK_of_fixed (by decide) x)).trans (decode_setDelay x)
  · exact (congrArg decode (ofNat_eq_wordXKK_of_fixed (by decide) x)).trans (decode_setSound x)

end Sys2Proof.Machine
end

section
/-! Proofs of spec/30_encoding.md: the encoder and the decoder are inverse to each other. First the words put together
again from their fields, then the words no row matches. -/

namespace Sys2Proof

/-! ### A word put together again from its fields (R82) -/

theorem wordNNN_fieldNNN {w : Word} {op : Nat} (hop : fieldOp w = op) : wordNNN op (fieldNNN w) = w := by
  rw [fieldOp_eq] at hop
  apply BitVec.eq_of_toNat_eq
  rw [wordNNN_toNat, fieldNNN_toNat]
  omega

theorem wordXKK_fieldX {w : Word} {op : Nat} {kk : Byte} (hop : fieldOp w = op) (hkk : (fieldKK w).toNat = kk.toNat) :
    wordXKK op (fieldX w) kk = w := by
  rw [fieldOp_eq] at hop
  rw [fieldKK_toNat] at hkk
  apply BitVec.eq_of_toNat_eq
  rw [wordXKK_toNat, fieldX_val]
  omega

theorem wordXYN_fieldX_fieldY {w : Word} {op n : Nat} (hop : fieldOp w = op) (hn : (fieldN w).val = n) :
    wordXYN op (fieldX w) (fieldY w) n = w := by
  rw [fieldOp_eq] at hop
  rw [fieldN_val] at hn
  apply BitVec.eq_of_toNat_eq
  rw [wordXYN_toNat, fieldX_val, fieldY_val]
  omega

/-! ### The words no row matches (R78) -/

theorem unmatched_iff (w : Word) : unmatched w = true ↔
    (fieldOp w = 0x5 ∧ (fieldN w).val ≠ 0) ∨ (fieldOp w = 0x8 ∧ (fieldN w).val ∉ aluSubOpcodes) ∨
    (fieldOp w = 0x9 ∧ (fieldN w).val ≠ 0) ∨ (fieldOp w = 0xE ∧ (fieldKK w).toNat ∉ keySubOpcodes) ∨
    (fieldOp w = 0xF ∧ (fieldKK w).toNat ∉ miscSubOpcodes) := by
  simp [unmatched, fieldOp_eq, fieldN_val, fieldKK_toNat, or_assoc]

theorem decodeAlu_noOp {w : Word} (h : (fieldN w).val ∉ aluSubOpcodes) : decodeAlu w = .noOp w := by
  simp only [aluSubOpcodes, List.mem_cons, List.not_mem_nil, or_false, not_or] at h
  simp [decodeAlu, h]

theorem decodeKey_noOp {w : Word} (h : (fieldKK w).toNat ∉ keySubOpcodes) : decodeKey w = .noOp w := by
  simp only [keySubOpcodes, List.mem_cons, List.not_mem_nil, or_false, not_or] at h
  simp [decodeKey, h]

theorem decodeMisc_noOp {w : Word} (h : (fieldKK w).toNat ∉ miscSubOpcodes) : decodeMisc w = .noOp w := by
  simp only [miscSubOpcodes, List.mem_cons, List.not_mem_nil, or_false, not_or] at h
  simp [decodeMisc, h]

theorem decode_noOp {w : Word} (h : unmatched w = true) : decode w = .noOp w := by
  rw [unmatched_iff] at h
  rw [decode_of_op (fieldOp_eq w).symm (by omega), decodeMajor]
  rcases h with ⟨hop, hlow⟩ | ⟨hop, hlow⟩ | ⟨hop, hlow⟩ | ⟨hop, hlow⟩ | ⟨hop, hlow⟩ <;> simp only [hop]
  · exact if_neg hlow
  · exact decodeAlu_noOp hlow
  · exact if_neg hlow
  · exact decodeKey_noOp hlow
  · exact decodeMisc_noOp hlow

/-! ### Decoding the words of the encoder -/

/-- R82: the word of a well-formed instruction shows its major digit, its fixed low digits and its operands, and these
select its row. -/
theorem decode_encode {i : Instr} (h : i.wellFormed = true) : decode (encode i) = i := by
  cases i with
  | sys nnn =>
    simp only [Instr.wellFormed, Bool.and_eq_true, bne_iff_ne] at h
    exact decode_sys h.1 h.2
  | clearScreen | ret => decide
  | noOp w => exact decode_noOp h
  | jump nnn | callSubroutine nnn | loadIndex nnn | jumpV0 nnn =>
    simp [encode, decode_wordNNN, decodeMajor]
  | skipIfEqualByte x kk | skipIfNotEqualByte x kk | loadByte x kk | addByte x kk | random x kk =>
    simp [encode, decode_wordXKK, decodeMajor]
  | skipIfEqualReg x y | skipIfNotEqualReg x y | draw x y n =>
    simp [encode, decode_wordXYN, decodeMajor]
  | loadReg x y | or x y | and x y | xor x y | addReg x y | subReg x y | shiftRight x y | subNReg x y | shiftLeft x y =>
    simp [encode, decode_wordXYN, decodeMajor, decodeAlu]
  | skipIfKeyDown x | skipIfKeyUp x =>
    simp [encode, decode_wordXKK, decodeMajor, decodeKey]
  | loadDelay x | waitKey x | setDelay x | setSound x | addIndex x | loadFont x | storeBCD x | storeRegs x | loadRegs x =>
    simp [encode, decode_wordXKK_misc, decodeMisc]

/-! ### Encoding the decoded words -/

/-- What the round trip needs of an instruction `i` decoded from `w`: some word decodes to it, and its word is `w`. -/
def IsDecodingOf (i : Instr) (w : Word) : Prop := i.wellFormed = true ∧ encode i = w

theorem isDecodingOf_noOp {w : Word} (h : unmatched w = true) : IsDecodingOf (.noOp w) w := ⟨h, rfl⟩

theorem isDecodingOf_decodeAlu {w : Word} (hop : fieldOp w = 0x8) : IsDecodingOf (decodeAlu w) w := by
  by_cases hmem : (fieldN w).val ∈ aluSubOpcodes
  · simp only [aluSubOpcodes, List.mem_cons, List.not_mem_nil, or_false] at hmem
    rcases hmem with hn | hn | hn | hn | hn | hn | hn | hn | hn <;>
      simp [IsDecodingOf, decodeAlu, hn, Instr.wellFormed, encode, wordXYN_fieldX_fieldY hop hn]
  · rw [decodeAlu_noOp hmem]
    exact isDecodingOf_noOp ((unmatched_iff w).2 (by simp [hop, hmem]))

theorem isDecodingOf_decodeKey {w : Word} (hop : fieldOp w = 0xE) : IsDecodingOf (decodeKey w) w := by
  by_cases hmem : (fieldKK w).toNat ∈ keySubOpcodes
  · simp only [keySubOpcodes, List.mem_cons, List.not_mem_nil, or_false] at hmem
    rcases hmem with hkk | hkk <;>
      simp [IsDecodingOf, decodeKey, hkk, Instr.wellFormed, encode, wordXKK_fieldX hop]
  · rw [decodeKey_noOp hmem]
    exact isDecodingOf_noOp ((unmatched_iff w).2 (by simp [hop, hmem]))

theorem isDecodingOf_decodeMisc {w : Word} (hop : fieldOp w = 0xF) : IsDecodingOf (decodeMisc w) w := by
  by_cases hmem : (fieldKK w).toNat ∈ miscSubOpcodes
  · simp only [miscSubOpcodes, List.mem_cons, List.not_mem_nil, or_false] at hmem
    rcases hmem with hkk | hkk | hkk | hkk | hkk | hkk | hkk | hkk | hkk <;>
      simp [IsDecodingOf, decodeMisc, hkk, Instr.wellFormed, encode, wordXKK_fieldX hop]
  · rw [decodeMisc_noOp hmem]
    exact isDecodingOf_noOp ((unmatched_iff w).2 (by simp [hop, hmem]))

theorem isDecodingOf_sys {w : Word} (hop : fieldOp w = 0x0) (hcls : w ≠ 0x00E0) (hret : w ≠ 0x00EE) :
    IsDecodingOf (.sys (fieldNNN w)) w := by
  have hword : wordNNN 0x0 (fieldNNN w) = w := wordNNN_fieldNNN hop
  have hne {nnn : Addr12} (hw : w ≠ wordNNN 0x0 nnn) : fieldNNN w ≠ nnn := fun e => hw (by rw [← e, hword])
  refine ⟨?_, hword⟩
  simp only [Instr.wellFormed, Bool.and_eq_true, bne_iff_ne]
  exact ⟨hne hcls, hne hret⟩

/-- The major digit selects a row, whose operands are the rest of the word, or a family. -/
theorem isDecodingOf_decodeMajor {w : Word} (hcls : w ≠ 0x00E0) (hret : w ≠ 0x00EE) : IsDecodingOf (decodeMajor w) w := by
  have hlt : fieldOp w < 16 := (bits w 12 4).isLt
  unfold decodeMajor
  split
  case h_1 hop => exact isDecodingOf_sys hop hcls hret
  case h_2 hop | h_3 hop | h_11 hop | h_12 hop => exact ⟨rfl, wordNNN_fieldNNN hop⟩
  case h_4 hop | h_5 hop | h_7 hop | h_8 hop | h_13 hop => exact ⟨rfl, wordXKK_fieldX hop rfl⟩
  case h_6 hop =>
    split
    next hn => exact ⟨rfl, wordXYN_fieldX_fieldY hop hn⟩
    next hn => exact isDecodingOf_noOp ((unmatched_iff w).2 (.inl ⟨hop, hn⟩))
  case h_10 hop =>
    split
    next hn => exact ⟨rfl, wordXYN_fieldX_fieldY hop hn⟩
    next hn => exact isDecodingOf_noOp ((unmatched_iff w).2 (.inr (.inr (.inl ⟨hop, hn⟩))))
  case h_9 hop => exact isDecodingOf_decodeAlu hop
  case h_14 hop => exact ⟨rfl, wordXYN_fieldX_fieldY hop rfl⟩
  case h_15 hop => exact isDecodingOf_decodeKey hop
  case h_16 =>
    simp only [imp_false] at *
    exact isDecodingOf_decodeMisc (by omega)

theorem isDecodingOf_decode (w : Word) : IsDecodingOf (decode w) w := by
  unfold decode
  split
  next hcls => rw [hcls]; exact ⟨rfl, rfl⟩
  next hcls =>
    split
    next hret => rw [hret]; exact ⟨rfl, rfl⟩
    next hret => exact isDecodingOf_decodeMajor hcls hret

@[simp] theorem encode_decode (w : Word) : encode (decode w) = w := (isDecodingOf_decode w).2

/-- NoOp is what the unmatched words decode to, and no other word. -/
theorem decode_eq_noOp_iff (w : Word) : decode w = .noOp w ↔ unmatched w = true := by
  refine ⟨fun h => ?_, decode_noOp⟩
  have hwf := (isDecodingOf_decode w).1
  rwa [h] at hwf

/-! ### The opcode map (R76) -/

/-- The word of a row, with its fixed digits as one number, decodes to the row's instruction. -/
theorem decode_of_eq_encode {w : Word} {i : Instr} (hwf : i.wellFormed = true) (hw : w = encode i) : decode w = i := by
  rw [hw, decode_encode hwf]

/-- The opcode map writes an xyn row whose digit n is fixed as one number, the major digit and n in it. -/
theorem ofNat_eq_wordXYN_of_fixed {base op n : Nat} (h : base = op * 4096 + n) (x y : Reg) :
    BitVec.ofNat 16 (base + 256 * x.val + 16 * y.val) = wordXYN op x y n :=
  congrArg (BitVec.ofNat 16) (by omega)

theorem ofNat_eq_wordNNN_of_fixed {base op : Nat} (h : base = op * 4096) (nnn : Addr12) :
    BitVec.ofNat 16 (base + nnn.toNat) = wordNNN op nnn := by rw [h, wordNNN]

theorem ofNat_eq_wordXKK_of_op {base op : Nat} (h : base = op * 4096) (x : Reg) (kk : Byte) :
    BitVec.ofNat 16 (base + 256 * x.val + kk.toNat) = wordXKK op x kk := by rw [h, ofNat_eq_wordXKK]

theorem ofNat_eq_wordXYN (op : Nat) (x y : Reg) (n : Nat) :
    BitVec.ofNat 16 (op * 4096 + 256 * x.val + 16 * y.val + n) = wordXYN op x y n :=
  congrArg (BitVec.ofNat 16) (by omega)

/-! ### The obligations -/

/-- Settles O1: `decode_encode`, by cases on the instruction. -/
theorem decodeOfEncodeIsIdentity : Obligations.DecodeOfEncodeIsIdentity := fun _ => decode_encode

/-- Settles O2: `isDecodingOf_decode`, along the branches of the decoder. -/
theorem encodeOfDecodeIsIdentity : Obligations.EncodeOfDecodeIsIdentity := isDecodingOf_decode

/-- Settles O3: each row's word is the encoder's, so `decode_encode` reads it back. -/
theorem opcodeMapRows : Obligations.OpcodeMapRows := by
  refine ⟨fun nnn hcls hret => ?_, by decide, by decide, fun nnn => ?_, fun x kk => ?_, fun x y => ?_, fun x y n => ?_,
    fun x => ?_⟩
  · rw [← Nat.zero_add nnn.toNat]
    exact decode_sys hcls hret
  · refine ⟨?_, ?_, ?_, ?_⟩ <;> exact decode_of_eq_encode rfl (ofNat_eq_wordNNN_of_fixed (by decide) nnn)
  · refine ⟨?_, ?_, ?_, ?_, ?_⟩ <;> exact decode_of_eq_encode rfl (ofNat_eq_wordXKK_of_op (by decide) x kk)
  · refine ⟨?_, ?_, ?_, ?_, ?_, ?_, ?_, ?_, ?_, ?_, ?_⟩ <;>
      exact decode_of_eq_encode rfl (ofNat_eq_wordXYN_of_fixed (by decide) x y)
  · exact decode_of_eq_encode rfl (ofNat_eq_wordXYN 0xD x y n.val)
  · refine ⟨?_, ?_, ?_, ?_, ?_, ?_, ?_, ?_, ?_, ?_, ?_⟩ <;>
      exact decode_of_eq_encode rfl (ofNat_eq_wordXKK_of_fixed (by decide) x)

/-- Settles O4: NoOp stands for exactly the unmatched words (`decode_eq_noOp_iff`), whose list is `unmatched_iff`; it
carries its word because `encode_decode` gives it back. -/
theorem noOpExactlyOnUnmatchedWords : Obligations.NoOpExactlyOnUnmatchedWords := by
  intro w
  refine ⟨?_, fun u hu => ?_⟩
  · have halu : w.toNat % 16 ∉ aluSubOpcodes ↔ 8 ≤ w.toNat % 16 ∧ w.toNat % 16 ≤ 0xD ∨ w.toNat % 16 = 0xF := by
      simp only [aluSubOpcodes, List.mem_cons, List.not_mem_nil, or_false]
      omega
    simp [decode_eq_noOp_iff, unmatched_iff, fieldOp_eq, fieldN_val, fieldKK_toNat, halu, keySubOpcodes, miscSubOpcodes]
  · have hword := encode_decode w
    rwa [hu] at hword

/-- Settles O5: eleven words, evaluated. -/
theorem sampleWordsDecode : Obligations.SampleWordsDecode := by
  unfold Obligations.SampleWordsDecode
  decide

/-- Settles O6: the word of the instruction is the two bytes again (`encode_decode`), the first one above the second. -/
theorem decodingTakesTwoBytes : Obligations.DecodingTakesTwoBytes := by
  refine ⟨fun hi lo rest => ⟨decode (hi ++ lo), rfl, ?_⟩, rfl, fun _ => rfl⟩
  rw [encode_decode, BitVec.toNat_append, ← Nat.shiftLeft_add_eq_or_of_lt lo.isLt, Nat.shiftLeft_eq]

/-- Settles O27: an unmatched word decodes to NoOp (`decode_noOp`), whose execute is the standard advance. -/
theorem noOpOnlyAdvances : Obligations.NoOpOnlyAdvances := fun _ _ => ⟨decode_noOp, rfl⟩

end Sys2Proof
end

section
/-! Frames: what each update of the state leaves unchanged, and how frames compose. -/

namespace Sys2Proof.Machine

/-! ### Composing frames -/

theorem Elem.same_trans {e : Elem} {s t u : State} (hst : e.same s t) (htu : e.same t u) : e.same s u := by
  cases e with
  | mem | v => exact fun a => (htu a).trans (hst a)
  | rnd => exact ⟨htu.1.trans hst.1, htu.2.trans hst.2⟩
  | i | pc | stack | sp | dt | st | key | lk | acc | display | fault | cfg => exact Eq.trans htu hst

theorem keptExcept.mono {l l' : List Elem} {s t : State} (h : keptExcept l s t) (hsub : l ⊆ l') : keptExcept l' s t :=
  fun e he => h e fun hl => he (hsub hl)

theorem keptExcept.trans {l l' : List Elem} {s t u : State} (hst : keptExcept l s t) (htu : keptExcept l' t u) :
    keptExcept (l ++ l') s u := fun e he =>
  Elem.same_trans (hst e fun hl => he (List.mem_append_left _ hl)) (htu e fun hl => he (List.mem_append_right _ hl))

/-- A frame from equalities of fields: every field equal that belongs to no listed element. -/
theorem keptExcept_of_fields {l : List Elem} {s t : State} (hmem : .mem ∈ l ∨ t.mem = s.mem ∧ t.cfg = s.cfg)
    (hv : .v ∈ l ∨ t.v = s.v) (hi : .i ∈ l ∨ t.i = s.i) (hpc : .pc ∈ l ∨ t.pc = s.pc)
    (hstack : .stack ∈ l ∨ t.stack = s.stack) (hsp : .sp ∈ l ∨ t.sp = s.sp) (hdt : .dt ∈ l ∨ t.dt = s.dt)
    (hst : .st ∈ l ∨ t.st = s.st) (hkey : .key ∈ l ∨ t.key = s.key) (hlk : .lk ∈ l ∨ t.lk = s.lk)
    (hacc : .acc ∈ l ∨ t.acc = s.acc) (hdisplay : .display ∈ l ∨ t.display = s.display)
    (hfault : .fault ∈ l ∨ t.fault = s.fault) (hcfg : .cfg ∈ l ∨ t.cfg = s.cfg)
    (hrnd : .rnd ∈ l ∨ t.rndQueue = s.rndQueue ∧ t.draws = s.draws) : keptExcept l s t := by
  intro e he
  cases e with
  | mem => obtain ⟨hm, hc⟩ := hmem.resolve_left he; exact State.byteAt_congr hm hc
  | v => exact State.reg_congr (hv.resolve_left he)
  | i => exact hi.resolve_left he
  | pc => exact hpc.resolve_left he
  | stack => exact hstack.resolve_left he
  | sp => exact hsp.resolve_left he
  | dt => exact hdt.resolve_left he
  | st => exact hst.resolve_left he
  | key => exact hkey.resolve_left he
  | lk => exact hlk.resolve_left he
  | acc => exact hacc.resolve_left he
  | display => exact hdisplay.resolve_left he
  | fault => exact hfault.resolve_left he
  | cfg => exact hcfg.resolve_left he
  | rnd => exact hrnd.resolve_left he

theorem keptExcept.then_setPc {l : List Elem} {s t : State} (h : keptExcept l s t) (a : Word) :
    keptExcept (.pc :: l) s (t.setPc a) := (h.trans (keptExcept_setPc t a)).mono (by simp)

theorem keptExcept.then_advance {l : List Elem} {s t : State} (h : keptExcept l s t) :
    keptExcept (.pc :: l) s t.advance := h.then_setPc (t.pc + 2)

theorem keptExcept_refl (l : List Elem) (s : State) : keptExcept l s s := by
  apply keptExcept_of_fields <;> simp

/-! ### The frame of each update -/

theorem keptExcept_advance (s : State) : keptExcept [.pc] s s.advance := keptExcept_setPc s (s.pc + 2)

theorem keptExcept_skipIf (s : State) (c : Bool) : keptExcept [.pc] s (s.skipIf c) := keptExcept_setPc s _

theorem keptExcept_setReg (s : State) (x : Reg) (u : Byte) : keptExcept [.v] s (s.setReg x u) := by
  apply keptExcept_of_fields <;> simp

theorem keptExcept_setRegsFrom0 (s : State) (us : List Byte) : keptExcept [.v] s (s.setRegsFrom0 us) := by
  apply keptExcept_of_fields <;> simp

theorem keptExcept_setResultAndFlag (s : State) (x : Reg) (u : Byte) (c : Bool) :
    keptExcept [.v] s (s.setResultAndFlag x u c) := by
  apply keptExcept_of_fields <;> simp

theorem keptExcept_setIndex (s : State) (a : Word) : keptExcept [.i] s (s.setIndex a) := by
  apply keptExcept_of_fields <;> simp

theorem keptExcept_setDisplay (s : State) (d : Display) : keptExcept [.display] s (s.setDisplay d) := by
  apply keptExcept_of_fields <;> simp

theorem keptExcept_setDT (s : State) (u : Byte) : keptExcept [.dt] s (s.setDT u) := by
  apply keptExcept_of_fields <;> simp

theorem keptExcept_setST (s : State) (u : Byte) : keptExcept [.st] s (s.setST u) := by
  apply keptExcept_of_fields <;> simp

theorem keptExcept_setLK (s : State) (k : Option Key) : keptExcept [.lk] s (s.setLK k) := by
  apply keptExcept_of_fields <;> simp

theorem keptExcept_setBytesFrom (s : State) (a : Nat) (us : List Byte) : keptExcept [.mem] s (s.setBytesFrom a us) := by
  apply keptExcept_of_fields <;> simp

theorem keptExcept_setKey (s : State) (k : Key) (pressed : Bool) : keptExcept [.key, .lk] s (s.setKey k pressed) := by
  apply keptExcept_of_fields <;> simp

theorem keptExcept_readyToFetch (s : State) : keptExcept [.pc, .fault] s s.readyToFetch := by
  apply keptExcept_of_fields <;> simp

theorem keptExcept_countStep (s : State) : keptExcept [.acc, .dt, .st] s s.countStep := by
  apply keptExcept_of_fields <;> simp

theorem keptExcept_dropRnd (s : State) : keptExcept [.rnd] s s.dropRnd := by
  apply keptExcept_of_fields <;> simp

/-! ### Registers and memory past the updates that write neither -/

@[simp] theorem State.reg_advance (s : State) (r : Reg) : s.advance.reg r = s.reg r := State.reg_congr (State.advance_v s) r

@[simp] theorem State.reg_setIndex (s : State) (a : Word) (r : Reg) : (s.setIndex a).reg r = s.reg r :=
  State.reg_congr (State.setIndex_v s a) r

@[simp] theorem State.reg_setLK (s : State) (k : Option Key) (r : Reg) : (s.setLK k).reg r = s.reg r :=
  State.reg_congr (State.setLK_v s k) r

@[simp] theorem State.byteAt_advance (s : State) (a : Nat) : s.advance.byteAt a = s.byteAt a :=
  State.byteAt_congr (State.advance_mem s) (State.advance_cfg s) a

@[simp] theorem State.byteAt_setIndex (s : State) (i : Word) (a : Nat) : (s.setIndex i).byteAt a = s.byteAt a :=
  State.byteAt_congr (State.setIndex_mem s i) (State.setIndex_cfg s i) a

/-- `bytesFrom` sees the bytes of memory alone. -/
theorem State.bytesFrom_congr {s t : State} (h : ∀ a, t.byteAt a = s.byteAt a) : ∀ n a, t.bytesFrom a n = s.bytesFrom a n := by
  intro n
  induction n with
  | zero => exact fun _ => rfl
  | succ n ih => intro a; rw [State.bytesFrom, State.bytesFrom, h, ih]

end Sys2Proof.Machine
end

section
/-! What an execute can do, for all 36 instructions at once: the fault of its row of the fault table, or one result. The
claims about every instruction, the fault table, the frames and the next pc, follow from it. -/

namespace Sys2Proof.Machine

/-! ### The result of an instruction that does not fault -/

/-- RET's result: the last slot in use names the pc, 2 bytes on, and is free again (R101). -/
def State.returned (s : State) : State := { s with sp := ⟨s.sp.val - 1, by omega⟩, pc := s.stack[s.sp.val - 1] + 2 }

/-- CALL's result: the pc in the next free slot, and the jump (R102). -/
def State.called (s : State) (nnn : Addr12) : State :=
  { s with stack := s.stack.setIfInBounds s.sp.val s.pc, sp := Fin.ofNat 17 (s.sp.val + 1), pc := addr nnn }

/-- Whether the key a register value names is down; a value above 0x0F names none. -/
def State.keyDownAt (s : State) (k : Byte) : Bool := s.key[k.toNat]?.getD false

/-- DRW's display and collision, drawn from the state's own memory (R196). -/
def State.drawn (s : State) (x y : Reg) (n : Rows) : Display × Bool :=
  drawSprite s.display (s.reg x).toNat (s.reg y).toNat (s.bytesFrom s.i.toNat n.val)

/-- The state an instruction leaves where the fault table has no row for it; `exec_cases` ties it to `exec`. -/
def resultOf (i : Instr) (s : State) : State :=
  match i with
  | .sys _ | .noOp _ => s.advance
  | .clearScreen => (s.setDisplay Display.clear).advance
  | .ret => s.returned
  | .jump nnn => s.setPc (addr nnn)
  | .callSubroutine nnn => s.called nnn
  | .jumpV0 nnn => s.setPc (jumpV0Target nnn s)
  | .skipIfEqualByte x kk => s.skipIf (s.reg x == kk)
  | .skipIfNotEqualByte x kk => s.skipIf (s.reg x != kk)
  | .skipIfEqualReg x y => s.skipIf (s.reg x == s.reg y)
  | .skipIfNotEqualReg x y => s.skipIf (s.reg x != s.reg y)
  | .loadByte x kk => (s.setReg x kk).advance
  | .addByte x kk => (s.setReg x (s.reg x + kk)).advance
  | .loadReg x y => (s.setReg x (s.reg y)).advance
  | .or x y => (s.setReg x (s.reg x ||| s.reg y)).advance
  | .and x y => (s.setReg x (s.reg x &&& s.reg y)).advance
  | .xor x y => (s.setReg x (s.reg x ^^^ s.reg y)).advance
  | .addReg x y => (s.setResultAndFlag x (s.reg x + s.reg y) (carry (s.reg x) (s.reg y))).advance
  | .subReg x y => (s.setResultAndFlag x (s.reg x - s.reg y) (noBorrow (s.reg x) (s.reg y))).advance
  | .subNReg x y => (s.setResultAndFlag x (s.reg y - s.reg x) (noBorrow (s.reg y) (s.reg x))).advance
  | .shiftRight x y => (s.setResultAndFlag x (shiftOperand x y s >>> 1) (shiftedOutRight (shiftOperand x y s))).advance
  | .shiftLeft x y => (s.setResultAndFlag x (shiftOperand x y s <<< 1) (shiftedOutLeft (shiftOperand x y s))).advance
  | .loadIndex nnn => (s.setIndex (addr nnn)).advance
  | .addIndex x => (s.setIndex (s.i + zext16 (s.reg x))).advance
  | .loadFont x => (s.setIndex (glyphAddr (s.reg x))).advance
  | .random x kk => (s.setReg x (s.rnd &&& kk)).advance
  | .draw x y n => ((s.setDisplay (s.drawn x y n).1).setFlag (s.drawn x y n).2).advance
  | .skipIfKeyDown x => s.skipIf (s.keyDownAt (s.reg x))
  | .skipIfKeyUp x => s.skipIf (!s.keyDownAt (s.reg x))
  | .loadDelay x => (s.setReg x s.dt).advance
  | .waitKey x => s.lk.elim s fun k => ((s.setReg x (keyByte k)).setLK none).advance
  | .setDelay x => (s.setDT (s.reg x)).advance
  | .setSound x => (s.setST (s.reg x)).advance
  | .storeBCD x => (s.setBytesFrom s.i.toNat (decimalDigits (s.reg x))).advance
  | .storeRegs x => ((s.setBytesFrom s.i.toNat (s.regsUpTo x)).setIndex (s.i + BitVec.ofNat 16 (x.val + 1))).advance
  | .loadRegs x =>
    ((s.setRegsFrom0 (s.bytesFrom s.i.toNat (x.val + 1))).setIndex (s.i + BitVec.ofNat 16 (x.val + 1))).advance

theorem resultOf_waitKey_none {s : State} (h : s.lk = none) (x : Reg) : resultOf (.waitKey x) s = s := by
  rw [resultOf, h, Option.elim_none]

theorem resultOf_waitKey_some {s : State} {k : Key} (h : s.lk = some k) (x : Reg) :
    resultOf (.waitKey x) s = ((s.setReg x (keyByte k)).setLK none).advance := by
  rw [resultOf, h, Option.elim_some]

theorem State.keyDownAt_of_lt {s : State} {k : Byte} (h : k.toNat < 16) : s.keyDownAt k = s.keyDown ⟨k.toNat, h⟩ := by
  simp [State.keyDownAt, State.keyDown, h]

theorem State.called_of_lt {s : State} (h : s.sp.val < 16) (nnn : Addr12) : s.called nnn =
    { s with stack := s.stack.set s.sp.val s.pc h, sp := ⟨s.sp.val + 1, by omega⟩, pc := addr nnn } := by
  have hsp : Fin.ofNat 17 (s.sp.val + 1) = ⟨s.sp.val + 1, by omega⟩ := Fin.ext (Nat.mod_eq_of_lt (by omega))
  have hstack : s.stack.setIfInBounds s.sp.val s.pc = s.stack.set s.sp.val s.pc h := by
    ext k hk
    simp [Vector.getElem_set, Vector.getElem_setIfInBounds]
  rw [State.called, hsp, hstack]

/-! ### Everything an execute can do -/

/-- Everything an execute can do: the result where the fault table has no row for it, and else its row's fault (R260). -/
theorem exec_cases (i : Instr) (s : State) :
    (faultOf i s = none ∧ exec i s = .next (resultOf i s)) ∨
    (∃ c, c ≠ .fetchOutOfRange ∧ faultOf i s = some c ∧ exec i s = .next (takeFault c (some (encode i)) s)) := by
  cases i with
  | ret =>
    rcases execRet_cases s with ⟨h, he⟩ | ⟨_, h, he⟩
    · exact .inr ⟨.stackUnderflow, by decide, if_pos h, he⟩
    · exact .inl ⟨if_neg (by omega), he⟩
  | callSubroutine nnn =>
    rcases execCallSubroutine_cases nnn s with ⟨h, he⟩ | ⟨h, he⟩
    · exact .inr ⟨.stackOverflow, by decide, if_pos h, he⟩
    · exact .inl ⟨if_neg (by omega), he.trans (congrArg _ (State.called_of_lt h nnn).symm)⟩
  | draw x y n =>
    rcases execDraw_cases x y n s with ⟨h, he⟩ | ⟨h, _, rfl, he⟩
    · exact .inr ⟨.memoryOutOfRange, by decide, if_pos h, he⟩
    · exact .inl ⟨if_neg h, he⟩
  | storeBCD x =>
    rcases execStoreBCD_cases x s with ⟨h, he⟩ | ⟨h, he⟩
    · exact .inr ⟨.memoryOutOfRange, by decide, if_pos h, he⟩
    · exact .inl ⟨if_neg (Nat.not_lt.2 h), he⟩
  | storeRegs x =>
    rcases execStoreRegs_cases x s with ⟨h, he⟩ | ⟨h, he⟩
    · exact .inr ⟨.memoryOutOfRange, by decide, if_pos h, he⟩
    · exact .inl ⟨if_neg (Nat.not_lt.2 h), he⟩
  | loadRegs x =>
    rcases execLoadRegs_cases x s with ⟨h, he⟩ | ⟨h, he⟩
    · exact .inr ⟨.memoryOutOfRange, by decide, if_pos h, he⟩
    · exact .inl ⟨if_neg (Nat.not_lt.2 h), he⟩
  | skipIfKeyDown x =>
    rcases execSkipIfKeyDown_cases x s with ⟨h, he⟩ | ⟨h, he⟩
    · exact .inr ⟨.keyIndexOutOfRange, by decide, if_pos h, he⟩
    · exact .inl ⟨if_neg (by omega), by rw [he, resultOf, State.keyDownAt_of_lt h]⟩
  | skipIfKeyUp x =>
    rcases execSkipIfKeyUp_cases x s with ⟨h, he⟩ | ⟨h, he⟩
    · exact .inr ⟨.keyIndexOutOfRange, by decide, if_pos h, he⟩
    · exact .inl ⟨if_neg (by omega), by rw [he, resultOf, State.keyDownAt_of_lt h]⟩
  | waitKey x =>
    rcases execWaitKey_cases x s with ⟨h, he⟩ | ⟨k, h, he⟩
    · exact .inl ⟨rfl, by rw [he, resultOf_waitKey_none h]⟩
    · exact .inl ⟨rfl, by rw [he, resultOf_waitKey_some h]⟩
  | sys | clearScreen | jump | skipIfEqualByte | skipIfNotEqualByte | skipIfEqualReg | loadByte | addByte | loadReg | or
  | and | xor | addReg | subReg | shiftRight | subNReg | shiftLeft | skipIfNotEqualReg | loadIndex | jumpV0 | random
  | loadDelay | setDelay | setSound | addIndex | loadFont | noOp => exact .inl ⟨rfl, rfl⟩

theorem exec_of_faultOf_none {i : Instr} {s : State} (h : faultOf i s = none) : exec i s = .next (resultOf i s) := by
  rcases exec_cases i s with ⟨_, he⟩ | ⟨c, _, hc, _⟩
  · exact he
  · rw [h] at hc; cases hc

theorem exec_of_faultOf_some {i : Instr} {s : State} {c : Fault} (h : faultOf i s = some c) :
    exec i s = .next (takeFault c (some (encode i)) s) := by
  rcases exec_cases i s with ⟨hn, _⟩ | ⟨c', _, hc, he⟩
  · rw [h] at hn; cases hn
  · rw [h] at hc; cases hc; exact he

/-- A fault row of the table, with the instruction's word as a number. -/
theorem exec_of_faultOf_some_of_word {i : Instr} {s : State} {c : Fault} {w : Word} (h : faultOf i s = some c)
    (hw : w = encode i) : exec i s = .next { s with fault := some { cause := c, pc := s.pc, word := some w } } := by
  rw [exec_of_faultOf_some h, hw]
  rfl

theorem faultOf_ne_fetchOutOfRange {i : Instr} {s : State} {c : Fault} (h : faultOf i s = some c) :
    c ≠ .fetchOutOfRange := by
  rcases exec_cases i s with ⟨hn, _⟩ | ⟨c', hne, hc, _⟩
  · rw [h] at hn; cases hn
  · rw [h] at hc; cases hc; exact hne

/-! ### The frame of the results -/

theorem keptExcept_returned (s : State) : keptExcept [.pc, .sp] s s.returned := by
  apply keptExcept_of_fields <;> simp [State.returned]

theorem keptExcept_called (s : State) (nnn : Addr12) : keptExcept [.pc, .stack, .sp] s (s.called nnn) := by
  apply keptExcept_of_fields <;> simp [State.called]

theorem keptExcept_resultOf (i : Instr) (s : State) : keptExcept (.pc :: writes i) s (resultOf i s) := by
  cases i with
  | sys | noOp => exact keptExcept_advance s
  | jump | jumpV0 => exact keptExcept_setPc s _
  | skipIfEqualByte | skipIfNotEqualByte | skipIfEqualReg | skipIfNotEqualReg | skipIfKeyDown | skipIfKeyUp =>
    exact keptExcept_skipIf s _
  | ret => exact keptExcept_returned s
  | callSubroutine nnn => exact keptExcept_called s nnn
  | clearScreen => exact (keptExcept_setDisplay s _).then_advance
  | draw => exact ((keptExcept_setDisplay s _).trans (keptExcept_setReg _ vf _)).then_advance
  | loadByte x | addByte x | loadReg x | or x | and x | xor x | random x | loadDelay x =>
    exact (keptExcept_setReg s x _).then_advance
  | addReg x | subReg x | subNReg x | shiftRight x | shiftLeft x =>
    exact (keptExcept_setResultAndFlag s x _ _).then_advance
  | loadIndex | addIndex | loadFont => exact (keptExcept_setIndex s _).then_advance
  | storeBCD => exact (keptExcept_setBytesFrom s _ _).then_advance
  | storeRegs => exact ((keptExcept_setBytesFrom s _ _).trans (keptExcept_setIndex _ _)).then_advance
  | loadRegs => exact ((keptExcept_setRegsFrom0 s _).trans (keptExcept_setIndex _ _)).then_advance
  | waitKey x =>
    cases hlk : s.lk with
    | none => rw [resultOf_waitKey_none hlk]; exact keptExcept_refl _ s
    | some k =>
      rw [resultOf_waitKey_some hlk]
      exact ((keptExcept_setReg s x _).trans (keptExcept_setLK _ _)).then_advance
  | setDelay => exact (keptExcept_setDT s _).then_advance
  | setSound => exact (keptExcept_setST s _).then_advance

/-- No instruction that does not fault writes these elements. -/
theorem not_mem_pc_writes (i : Instr) : ∀ e ∈ [Elem.key, .acc, .fault, .cfg, .rnd], e ∉ Elem.pc :: writes i := by
  cases i <;> simp [writes]

@[simp] theorem resultOf_acc (i : Instr) (s : State) : (resultOf i s).acc = s.acc :=
  keptExcept_resultOf i s .acc (not_mem_pc_writes i _ (by decide))

@[simp] theorem resultOf_fault (i : Instr) (s : State) : (resultOf i s).fault = s.fault :=
  keptExcept_resultOf i s .fault (not_mem_pc_writes i _ (by decide))

@[simp] theorem resultOf_cfg (i : Instr) (s : State) : (resultOf i s).cfg = s.cfg :=
  keptExcept_resultOf i s .cfg (not_mem_pc_writes i _ (by decide))

theorem State.reg_setRegsFrom0_other {s : State} {us : List Byte} {r : Reg} (h : us.length ≤ r.val) :
    (s.setRegsFrom0 us).reg r = s.reg r := by
  rw [State.reg_setRegsFrom0, List.getD_eq_default _ _ h]

/-- The registers an instruction does not write (R23). -/
theorem reg_resultOf {i : Instr} {r : Reg} (h : writesReg i r = false) (s : State) : (resultOf i s).reg r = s.reg r := by
  have hframe := keptExcept_resultOf i s .v
  cases i with
  | loadByte | addByte | loadReg | or | and | xor | random | loadDelay =>
    exact State.reg_setReg_other (by simpa [writesReg] using h) _
  | addReg | subReg | subNReg | shiftRight | shiftLeft =>
    simp only [writesReg, Bool.or_eq_false_iff, beq_eq_false_iff_ne] at h
    exact (State.reg_setResultAndFlag ..).trans (by rw [if_neg h.2, if_neg h.1])
  | draw => exact State.reg_setReg_other (by simpa [writesReg] using h) _
  | loadRegs x =>
    have hr : x.val < r.val := by simpa [writesReg] using h
    rw [resultOf, State.reg_advance, State.reg_setIndex, State.reg_setRegsFrom0_other]
    rwa [State.length_bytesFrom]
  | waitKey x =>
    cases hlk : s.lk with
    | none => rw [resultOf_waitKey_none hlk]
    | some k =>
      rw [resultOf_waitKey_some hlk]
      exact State.reg_setReg_other (by simpa [writesReg] using h) _
  | sys | clearScreen | ret | jump | callSubroutine | skipIfEqualByte | skipIfNotEqualByte | skipIfEqualReg
  | skipIfNotEqualReg | loadIndex | jumpV0 | skipIfKeyDown | skipIfKeyUp | setDelay | setSound | addIndex | loadFont
  | storeBCD | storeRegs | noOp => exact hframe (by simp [writes]) r

/-- The bytes of memory an instruction does not store to (R57, R58). -/
theorem byteAt_resultOf {i : Instr} {s : State} {a : Nat} (h : storesTo i s a = false) :
    (resultOf i s).byteAt a = s.byteAt a := by
  have hframe := keptExcept_resultOf i s .mem
  cases i with
  | storeBCD x =>
    rw [resultOf, State.byteAt_advance, State.byteAt_setBytesFrom_other]
    simp only [storesTo, storedBlock, Bool.and_eq_false_iff, decide_eq_false_iff_not] at h
    change a < _ ∨ s.i.toNat + 3 ≤ a
    omega
  | storeRegs x =>
    rw [resultOf, State.byteAt_advance, State.byteAt_setIndex, State.byteAt_setBytesFrom_other]
    simp only [storesTo, storedBlock, Bool.and_eq_false_iff, decide_eq_false_iff_not] at h
    rw [State.length_regsUpTo]
    omega
  | sys | clearScreen | ret | jump | callSubroutine | skipIfEqualByte | skipIfNotEqualByte | skipIfEqualReg | loadByte
  | addByte | loadReg | or | and | xor | addReg | subReg | shiftRight | subNReg | shiftLeft | skipIfNotEqualReg | loadIndex
  | jumpV0 | random | draw | skipIfKeyDown | skipIfKeyUp | loadDelay | waitKey | setDelay | setSound | addIndex | loadFont
  | loadRegs | noOp => exact hframe (by simp [writes]) a

/-! ### The next pc (R80) -/

theorem toNat_jumpV0Target (nnn : Addr12) (s : State) :
    (jumpV0Target nnn s).toNat = nnn.toNat + (s.reg 0).toNat := by
  rw [jumpV0Target, BitVec.toNat_add, addr_toNat, zext16_toNat]
  omega

/-- The bound of the invariant on the return addresses in use (R26). -/
def State.StackBounded (s : State) : Prop := ∀ k : Fin 16, k.val < s.sp.val → (s.stack[k]).toNat ≤ 0x0FFE

theorem topSlot_le {s : State} (h : s.StackBounded) (hsp : 0 < s.sp.val) : (s.stack[s.sp.val - 1]).toNat ≤ 0x0FFE :=
  h ⟨s.sp.val - 1, by omega⟩ (Nat.sub_lt hsp Nat.one_pos)

theorem pos_sp_of_faultOf_ret {s : State} (h : faultOf .ret s = none) : 0 < s.sp.val :=
  Nat.pos_of_ne_zero fun hsp => absurd ((if_pos hsp).symm.trans h) (by simp)

theorem nextPc_ret (s : State) : nextPc .ret s = (s.stack[s.sp.val - 1]).toNat + 2 := by
  have hlt : s.sp.val - 1 < 16 := by omega
  rw [nextPc, Vector.getElem?_eq_getElem hlt, Option.getD_some]

section
variable {s : State} (hpc : s.pc.toNat ≤ 0x0FFE)
include hpc

theorem toNat_advance_pc {t : State} (ht : t.pc = s.pc) : t.advance.pc.toNat = s.pc.toNat + 2 := by
  rw [State.advance_pc, ht]
  bv_omega

theorem toNat_skipIf_pc (c : Bool) : (s.skipIf c).pc.toNat = s.pc.toNat + if c then 4 else 2 := by
  cases c
  · exact toNat_advance_pc hpc rfl
  · change (s.pc + 4).toNat = s.pc.toNat + 4
    bv_omega

theorem toNat_resultOf_pc {i : Instr} (hf : faultOf i s = none)
    (hstack : s.StackBounded) : (resultOf i s).pc.toNat = nextPc i s := by
  cases i with
  | jump nnn | callSubroutine nnn => exact addr_toNat nnn
  | jumpV0 nnn => exact toNat_jumpV0Target nnn s
  | ret =>
    have hslot := topSlot_le hstack (pos_sp_of_faultOf_ret hf)
    rw [nextPc_ret, resultOf, State.returned]
    bv_omega
  | skipIfEqualByte | skipIfNotEqualByte | skipIfEqualReg | skipIfNotEqualReg | skipIfKeyDown | skipIfKeyUp =>
    exact toNat_skipIf_pc hpc _
  | waitKey x =>
    cases hlk : s.lk with
    | none => rw [resultOf_waitKey_none hlk]; exact (if_pos hlk).symm
    | some k =>
      rw [resultOf_waitKey_some hlk]
      exact (toNat_advance_pc hpc rfl).trans (if_neg (by simp [hlk])).symm
  | storeBCD | storeRegs | loadRegs =>
    simp only [resultOf, nextPc]
    exact toNat_advance_pc hpc (by simp)
  | sys | clearScreen | loadByte | addByte | loadReg | or | and | xor | addReg | subReg | shiftRight | subNReg | shiftLeft
  | loadIndex | random | draw | loadDelay | setDelay | setSound | addIndex | loadFont | noOp =>
    exact toNat_advance_pc hpc rfl

end

/-! ### The obligations -/

/-- Settles O10: `exec_cases`, where the result keeps FAULT (`resultOf_fault`). -/
theorem faultsAreExactlyTheFaultTable : Obligations.FaultsAreExactlyTheFaultTable := by
  intro i s
  rcases exec_cases i s with ⟨hn, he⟩ | ⟨c, _, hc, he⟩
  · exact ⟨_, he, fun _ => resultOf_fault i s, fun c hc => absurd (hn.symm.trans hc) (by simp)⟩
  · refine ⟨_, he, fun hn => absurd (hn.symm.trans hc) (by simp), fun c' hc' => ?_⟩
    obtain rfl : c = c' := Option.some.inj (hc.symm.trans hc')
    rfl

/-- Settles O13: the answer is the instruction's result, whose elements, registers and bytes are
`keptExcept_resultOf`, `reg_resultOf` and `byteAt_resultOf`. -/
theorem instructionFrames : Obligations.InstructionFrames := by
  intro i s t hf he
  rw [exec_of_faultOf_none hf] at he
  cases he
  exact ⟨keptExcept_resultOf i s, fun _ hr => reg_resultOf hr s, fun _ ha => byteAt_resultOf ha⟩

/-- Settles O14: `toNat_resultOf_pc`, to which the invariant gives the bound on the return addresses. -/
theorem nextPcTable : Obligations.NextPcTable := fun _ _ hinv hpc hf =>
  ⟨_, exec_of_faultOf_none hf, toNat_resultOf_pc hpc hf hinv.stack⟩

end Sys2Proof.Machine
end

section
/-! Proofs of spec/45_cycle_driver.md: what one step can do, the count of completed steps, the fetch, and the random
input. -/

namespace Sys2Proof.Machine

/-! ### The step of a running core -/

theorem State.afterExecute_of_none {t : State} (h : t.fault = none) : t.afterExecute = t.countStep.dropRnd := by
  simp [State.afterExecute, h]

theorem State.afterExecute_of_some {t : State} {r : FaultRecord} (h : t.fault = some r) : t.afterExecute = t := by
  simp [State.afterExecute, h]

theorem step_of_halted {s : State} (h : s.fault ≠ none) : step s = .next s := by
  simp [step, Option.isSome_iff_ne_none.2 h]

section
variable {s : State} (hfault : s.fault = none)
include hfault

theorem step_of_pc_out_of_range (hpc : 0x0FFE < s.pc.toNat) : step s = .next (takeFault .fetchOutOfRange none s) := by
  simp [step, hfault, s.fetchOutOfRange_iff.2 hpc]

variable (hpc : s.pc.toNat ≤ 0x0FFE)
include hpc

theorem step_of_running : step s = finish (exec (decode s.fetchWord) s) := by
  have hfetch : ¬ s.fetchOutOfRange = true := fun h => absurd (s.fetchOutOfRange_iff.1 h) (Nat.not_lt.2 hpc)
  simp [step, hfault, hfetch]

/-- A faulting step records the fetched word: the instruction's own word is that word (`encode_decode`). -/
theorem step_of_faultOf_some {c : Fault} (h : faultOf (decode s.fetchWord) s = some c) :
    step s = .next (takeFault c (some s.fetchWord) s) := by
  rw [step_of_running hfault hpc, exec_of_faultOf_some h, encode_decode, finish,
    State.afterExecute_of_some (takeFault_fault ..)]

theorem step_of_faultOf_none (h : faultOf (decode s.fetchWord) s = none) :
    step s = .next (resultOf (decode s.fetchWord) s).countStep.dropRnd := by
  rw [step_of_running hfault hpc, exec_of_faultOf_none h, finish, State.afterExecute_of_none ((resultOf_fault ..).trans hfault)]

theorem step_of_decode {i : Instr} (hi : decode s.fetchWord = i) (h : faultOf i s = none) :
    step s = .next (resultOf i s).countStep.dropRnd := by
  subst hi
  exact step_of_faultOf_none hfault hpc h

end

/-- Everything a step can do, from any state: nothing in a halted core, the fetch fault, the fault of the fetched
instruction, or that instruction's result and the driver's count. -/
theorem step_outcomes (s : State) :
    (s.fault ≠ none ∧ step s = .next s) ∨
    (s.fault = none ∧ 0x0FFE < s.pc.toNat ∧ step s = .next (takeFault .fetchOutOfRange none s)) ∨
    (s.fault = none ∧ s.pc.toNat ≤ 0x0FFE ∧ ∃ c, faultOf (decode s.fetchWord) s = some c ∧
      step s = .next (takeFault c (some s.fetchWord) s)) ∨
    (s.fault = none ∧ s.pc.toNat ≤ 0x0FFE ∧ faultOf (decode s.fetchWord) s = none ∧
      step s = .next (resultOf (decode s.fetchWord) s).countStep.dropRnd) := by
  by_cases hfault : s.fault = none
  · rcases Nat.lt_or_ge 0x0FFE s.pc.toNat with hpc | hpc
    · exact .inr (.inl ⟨hfault, hpc, step_of_pc_out_of_range hfault hpc⟩)
    · cases hf : faultOf (decode s.fetchWord) s with
      | none => exact .inr (.inr (.inr ⟨hfault, hpc, rfl, step_of_faultOf_none hfault hpc hf⟩))
      | some c => exact .inr (.inr (.inl ⟨hfault, hpc, c, rfl, step_of_faultOf_some hfault hpc hf⟩))
  · exact .inl ⟨hfault, step_of_halted hfault⟩

/-! ### Counting (R235, R236, R239) -/

theorem State.countStep_of_ratio {s : State} (h : s.acc + 1 = s.cfg.cyclesPerTick) :
    s.countStep = { s.tick with acc := 0 } := if_pos h

theorem State.countStep_of_not_ratio {s : State} (h : s.acc + 1 ≠ s.cfg.cyclesPerTick) :
    s.countStep = { s with acc := s.acc + 1 } := if_neg h

/-- The count and the random input touch nothing else (R235). -/
theorem keptExcept_countStep_dropRnd (t : State) : keptExcept [.acc, .dt, .st, .rnd] t t.countStep.dropRnd :=
  (keptExcept_countStep t).trans (keptExcept_dropRnd t.countStep)

/-- One count more: at the ratio the remainder returns to 0 and the quotient goes up, elsewhere the remainder goes up. -/
theorem mod_div_succ {c : Nat} (hc : 0 < c) (m : Nat) :
    (m % c + 1 = c → (m + 1) % c = 0 ∧ (m + 1) / c = m / c + 1) ∧
    (m % c + 1 ≠ c → (m + 1) % c = m % c + 1 ∧ (m + 1) / c = m / c) := by
  have hm := Nat.mod_add_div m c
  have hlt := Nat.mod_lt m hc
  refine ⟨fun h => And.symm ((Nat.div_mod_unique hc).2 ⟨?_, hc⟩), fun h => And.symm ((Nat.div_mod_unique hc).2 ⟨?_, ?_⟩)⟩
  · rw [Nat.mul_succ]
    omega
  · omega
  · omega

@[simp] theorem State.iterate_countStep_cfg (n : Nat) (s : State) : (State.countStep^[n] s).cfg = s.cfg := by
  induction n with
  | zero => rfl
  | succ n ih => rw [Function.iterate_succ_apply', State.countStep_cfg, ih]

/-! ### The fetch (R64, R55) -/

theorem State.byteAt_setByte {s : State} (h : Memory.wf s.cfg.font s.mem = true) (a b : Nat) (u : Byte) :
    (s.setByte a u).byteAt b = if b = a then u else s.byteAt b := by
  split
  next hb => rw [hb, State.byteAt_setByte_same h]
  next hb => exact State.byteAt_setByte_other hb u

theorem State.withFetchWord_pc (s : State) (nbits w : Nat) : (s.withFetchWord nbits w).pc = s.readyToFetch.pc :=
  State.setBytesFrom_pc _ _ _

theorem State.withFetchWord_fault (s : State) (nbits w : Nat) : (s.withFetchWord nbits w).fault = none :=
  State.setBytesFrom_fault _ _ _

/-- The word placed is the word the next step fetches. -/
theorem State.fetchWord_withFetchWord {s : State} (h : Memory.wf s.cfg.font s.mem = true) (w : Word) :
    (s.withFetchWord 16 w.toNat).fetchWord = w := by
  have hpc : s.readyToFetch.pc.toNat ≤ 0x0FFE := s.readyToFetch_pc_le
  have hin : s.readyToFetch.pc.toNat + (wordBytes w).length ≤ memSize := by
    rw [wordBytes_length, memSize]
    omega
  have hbyte {k : Nat} (hk : k < (wordBytes w).length) :
      (s.withFetchWord 16 w.toNat).byteAt (s.readyToFetch.pc.toNat + k) = (wordBytes w)[k] := by
    rw [State.withFetchWord, tableWord_toNat]
    exact State.byteAt_setBytesFrom_same hk h hin
  have hhigh : (s.withFetchWord 16 w.toNat).byteAt s.readyToFetch.pc.toNat = bits w 8 8 := hbyte Nat.zero_lt_two
  have hlow : (s.withFetchWord 16 w.toNat).byteAt (s.readyToFetch.pc.toNat + 1) = bits w 0 8 := hbyte Nat.one_lt_two
  rw [State.fetchWord, State.withFetchWord_pc, hhigh, hlow, wordBytes_append]

theorem keptExcept_withFetchWord (s : State) (nbits w : Nat) :
    keptExcept [.mem, .pc, .fault] s (s.withFetchWord nbits w) :=
  ((keptExcept_readyToFetch s).trans (keptExcept_setBytesFrom _ _ _)).mono (by decide)

/-! ### The random input (R13, R146) -/

/-- The state with another supply of random bytes. -/
def State.withRnd (s : State) (q : List Byte) : State := { s with rndQueue := q }

theorem State.bytesFrom_withRnd (s : State) (q : List Byte) : ∀ n a, (s.withRnd q).bytesFrom a n = s.bytesFrom a n :=
  State.bytesFrom_congr fun _ => rfl

theorem State.setBytesFrom_withRnd (q : List Byte) (us : List Byte) : ∀ (s : State) (a : Nat),
    (s.withRnd q).setBytesFrom a us = (s.setBytesFrom a us).withRnd q := by
  induction us with
  | nil => exact fun _ _ => rfl
  | cons u us ih => exact fun s a => ih (s.setByte a u) (a + 1)

theorem faultOf_withRnd (i : Instr) (s : State) (q : List Byte) : faultOf i (s.withRnd q) = faultOf i s := by
  cases i <;> rfl

/-- The result of every instruction but RND is the same whatever random bytes are supplied. -/
theorem resultOf_withRnd {i : Instr} (hi : ∀ x kk, i ≠ .random x kk) (s : State) (q : List Byte) :
    resultOf i (s.withRnd q) = (resultOf i s).withRnd q := by
  cases i with
  | random x kk => exact absurd rfl (hi x kk)
  | draw x y n => simp only [resultOf, State.drawn, State.bytesFrom_withRnd]; rfl
  | loadRegs x => simp only [resultOf, State.bytesFrom_withRnd]; rfl
  | storeBCD x => exact congrArg State.advance (State.setBytesFrom_withRnd ..)
  | storeRegs x => exact congrArg (fun t => (State.setIndex t _).advance) (State.setBytesFrom_withRnd ..)
  | waitKey x =>
    cases hlk : s.lk with
    | none => rw [resultOf_waitKey_none hlk, resultOf_waitKey_none (s := s.withRnd q) hlk]
    | some k => rw [resultOf_waitKey_some hlk, resultOf_waitKey_some (s := s.withRnd q) hlk]; rfl
  | _ => rfl

theorem countStep_withRnd (t : State) (q : List Byte) :
    (t.withRnd q).countStep.dropRnd = t.countStep.dropRnd.withRnd q.tail := by
  by_cases h : t.acc + 1 = t.cfg.cyclesPerTick
  · rw [State.countStep_of_ratio h, State.countStep_of_ratio (s := t.withRnd q) h]; rfl
  · rw [State.countStep_of_not_ratio h, State.countStep_of_not_ratio (s := t.withRnd q) h]; rfl

/-- A step that does not execute RND leaves one state, whatever random bytes are supplied, but for the bytes left over. -/
theorem step_withRnd {s : State} (hrnd : ∀ x kk, decode s.fetchWord ≠ .random x kk) :
    ∃ t : State, ∀ q, ∃ q', step (s.withRnd q) = .next (t.withRnd q') := by
  have hfault (q : List Byte) := faultOf_withRnd (decode s.fetchWord) s q
  rcases step_outcomes s with ⟨hf, _⟩ | ⟨hf, hpc, _⟩ | ⟨hf, hpc, c, hc, _⟩ | ⟨hf, hpc, hn, _⟩
  · exact ⟨s, fun q => ⟨q, step_of_halted (s := s.withRnd q) hf⟩⟩
  · exact ⟨takeFault .fetchOutOfRange none s, fun q => ⟨q, step_of_pc_out_of_range (s := s.withRnd q) hf hpc⟩⟩
  · exact ⟨takeFault c (some s.fetchWord) s, fun q =>
      ⟨q, step_of_faultOf_some (s := s.withRnd q) hf hpc ((hfault q).trans hc)⟩⟩
  · refine ⟨(resultOf (decode s.fetchWord) s).countStep.dropRnd, fun q => ⟨q.tail, ?_⟩⟩
    rw [← countStep_withRnd, ← resultOf_withRnd hrnd]
    exact step_of_faultOf_none (s := s.withRnd q) hf hpc ((hfault q).trans hn)

/-- `step(s, rnd)` as the step of the state with that one byte supplied. -/
theorem stepWith_of_step {s t : State} {a : Byte} (h : step (s.withRnd [a]) = .next t) :
    stepWith a s = .next (t.withRnd s.rndQueue) := by
  rw [stepWith, show { s with rndQueue := [a] } = s.withRnd [a] from rfl, h]
  rfl

/-! ### The obligations -/

/-- Settles O7: the instruction is the decoded fetch word; whether its execute faults or not, the step is its answer
with the driver's count where FAULT is none (`step_of_running`). -/
theorem stepRunsTheDecodedInstruction : Obligations.StepRunsTheDecodedInstruction := by
  intro s i hfault hpc hdecode _
  obtain rfl : decode s.fetchWord = i := (Prod.mk.inj (Except.ok.inj hdecode)).1
  rcases exec_cases (decode s.fetchWord) s with ⟨hn, he⟩ | ⟨c, _, hc, he⟩
  · refine ⟨_, he, ?_⟩
    rw [step_of_faultOf_none hfault hpc hn, if_pos ((resultOf_fault ..).trans hfault)]
  · refine ⟨_, he, ?_⟩
    rw [step_of_faultOf_some hfault hpc hc, if_neg (by simp), encode_decode]

/-- Settles O8: `step_of_pc_out_of_range`, whose fault entry writes FAULT alone. -/
theorem fetchBeyondMemoryFaults : Obligations.FetchBeyondMemoryFaults := fun _ => step_of_pc_out_of_range

/-- Settles O9, by induction on the number of steps. -/
theorem haltedCoreChangesNothing : Obligations.HaltedCoreChangesNothing := by
  intro n s hfault
  induction n with
  | zero => rfl
  | succ n ih => rw [core_run_succ n (step_of_halted hfault), ih]

/-- Settles O11: `step_of_faultOf_some`, whose fault entry writes FAULT alone. -/
theorem faultingStepCommitsNothing : Obligations.FaultingStepCommitsNothing :=
  fun _ _ hfault hpc => step_of_faultOf_some hfault hpc

/-- Settles O12: of the outcomes of a running step only the last one, the safe one, leaves FAULT none. -/
theorem stepFaultsExactlyWhenUnsafe : Obligations.StepFaultsExactlyWhenUnsafe := by
  intro s hfault
  have hsafe : safeToStep s = true ↔ s.pc.toNat ≤ 0x0FFE ∧ faultOf (decode s.fetchWord) s = none := by
    rw [safeToStep, Bool.and_eq_true, Bool.not_eq_true', ← Bool.not_eq_true, s.fetchOutOfRange_iff, Nat.not_lt,
      Option.isNone_iff_eq_none]
  rcases step_outcomes s with ⟨hf, _⟩ | ⟨_, hpc, hs⟩ | ⟨_, _, c, hc, hs⟩ | ⟨_, hpc, hn, hs⟩
  · exact absurd hfault hf
  · exact ⟨_, hs, by simp [hsafe, Nat.not_le.2 hpc]⟩
  · exact ⟨_, hs, by simp [hsafe, hc]⟩
  · exact ⟨_, hs, by simp [hsafe, hpc, hn, hfault]⟩

/-- Settles O15: the step is the count of the execute's result, which keeps the accumulator and the parameters
(`resultOf_acc`, `resultOf_cfg`). -/
theorem completedStepCountsAndTicks : Obligations.CompletedStepCountsAndTicks := by
  intro s t hfault hpc hexec htf
  rcases exec_cases (decode s.fetchWord) s with ⟨hn, he⟩ | ⟨c, _, _, he⟩ <;> rw [he] at hexec <;> cases hexec
  · refine ⟨_, step_of_faultOf_none hfault hpc hn, fun hratio => ?_, fun hratio => ?_, keptExcept_countStep_dropRnd _⟩ <;>
      simp [State.countStep_acc, State.countStep_dt, State.countStep_st, hratio]
  · cases htf

/-- Settles O16, by induction on the number of counts; `mod_div_succ` is the arithmetic of one count. -/
theorem timersCountDownExactly : Obligations.TimersCountDownExactly := by
  intro n s hacc
  have hpos : 0 < s.cfg.cyclesPerTick := Nat.zero_lt_of_lt hacc
  induction n with
  | zero => simp [Nat.mod_eq_of_lt hacc, Nat.div_eq_of_lt hacc]
  | succ n ih =>
    obtain ⟨ihacc, ihdt, ihst⟩ := ih
    obtain ⟨hwrap, hup⟩ := mod_div_succ hpos (s.acc + n)
    rw [Function.iterate_succ_apply', State.countStep_acc, State.countStep_dt, State.countStep_st,
      State.iterate_countStep_cfg, ihacc, ← Nat.add_assoc]
    by_cases h : (s.acc + n) % s.cfg.cyclesPerTick + 1 = s.cfg.cyclesPerTick
    · simp only [if_pos h, hwrap h, countDown_toNat, ihdt, ihst, Nat.sub_sub, and_self]
    · simp only [if_neg h, hup h, ihdt, ihst, and_self]

/-- Settles O17: a byte of canonical memory reads as written at its address, and as before elsewhere. -/
theorem fetchSeesStores : Obligations.FetchSeesStores := by
  intro s a u hwf
  rw [State.fetchWord, State.setByte_pc, State.byteAt_setByte hwf, State.byteAt_setByte hwf]

/-- Settles O18: the placed word is the fetched word (`State.fetchWord_withFetchWord`), at a pc the state fetches from. -/
theorem placedWordRunsNext : Obligations.PlacedWordRunsNext := by
  intro s w hwf
  refine ⟨?_, ?_, keptExcept_withFetchWord s 16 w.toNat, fun hpc => ?_⟩
  · have hpc : (s.withFetchWord 16 w.toNat).pc.toNat ≤ 0x0FFE := by
      rw [State.withFetchWord_pc]
      exact s.readyToFetch_pc_le
    rw [step_of_running (State.withFetchWord_fault ..) hpc, State.fetchWord_withFetchWord hwf]
  · rw [decodeTableWord, tableWord_toNat, wordBytes, decodeBytes, wordBytes_append]
  · rw [State.withFetchWord_pc, State.readyToFetch_pc,
      if_neg fun h => absurd (s.fetchOutOfRange_iff.1 h) (Nat.not_lt.2 hpc)]

/-- Settles O19: with either byte supplied the step leaves one state (`step_withRnd`), to which the old supply returns. -/
theorem onlyRandomReadsTheRandomByte : Obligations.OnlyRandomReadsTheRandomByte := by
  intro s a b hrnd
  obtain ⟨t, ht⟩ := step_withRnd hrnd
  obtain ⟨_, ha⟩ := ht [a]
  obtain ⟨_, hb⟩ := ht [b]
  rw [stepWith_of_step ha, stepWith_of_step hb]
  rfl

end Sys2Proof.Machine
end

section
/-! Proofs of spec/10_state.md and spec/45_cycle_driver.md section 4: the invariant, at reset, over a step and over a run;
the reset state; the canonical form of memory. -/

namespace Sys2Proof.Machine

/-! ### The invariant over the result of an instruction -/

theorem stackBounded_congr {s t : State} (h : s.StackBounded) (hstack : t.stack = s.stack) (hsp : t.sp = s.sp) :
    t.StackBounded := by
  intro k hk
  rw [hstack]
  exact h k (hsp ▸ hk)

section
variable {i : Instr} {s : State} (hf : faultOf i s = none)
include hf

/-- A block the fault table lets pass ends inside memory, so storing it keeps the canonical form. -/
theorem wf_resultOf (hwf : Memory.wf s.cfg.font s.mem = true) : Memory.wf s.cfg.font (resultOf i s).mem = true := by
  cases i with
  | storeBCD x =>
    have hi : s.i.toNat + 2 ≤ 0x0FFF := by simpa [faultOf] using hf
    exact State.wf_setBytesFrom hwf (show s.i.toNat + 3 ≤ 4096 by omega)
  | storeRegs x =>
    have hi : s.i.toNat + x.val ≤ 0x0FFF := by simpa [faultOf] using hf
    exact State.wf_setBytesFrom hwf (by rw [State.length_regsUpTo, memSize]; omega)
  | waitKey x =>
    cases hlk : s.lk with
    | none => rwa [resultOf_waitKey_none hlk]
    | some k => rw [resultOf_waitKey_some hlk]; exact hwf
  | loadRegs => simpa [resultOf] using hwf
  | sys | clearScreen | ret | jump | callSubroutine | skipIfEqualByte | skipIfNotEqualByte | skipIfEqualReg | loadByte
  | addByte | loadReg | or | and | xor | addReg | subReg | shiftRight | subNReg | shiftLeft | skipIfNotEqualReg | loadIndex
  | jumpV0 | random | draw | skipIfKeyDown | skipIfKeyUp | loadDelay | setDelay | setSound | addIndex | loadFont
  | noOp => exact hwf

/-- RET's next pc is 2 past a return address in use, CALL's and the jumps' are sums of operands, and the others move by
at most 4. -/
theorem nextPc_le (hpc : s.pc.toNat ≤ 0x0FFE) (hstack : s.StackBounded) : nextPc i s ≤ 0x10FE := by
  have hskip (c : Bool) : s.pc.toNat + (if c then 4 else 2) ≤ 0x10FE := by split <;> omega
  cases i with
  | jump nnn | callSubroutine nnn | jumpV0 nnn => simp only [nextPc]; omega
  | skipIfEqualByte | skipIfNotEqualByte | skipIfEqualReg | skipIfNotEqualReg | skipIfKeyDown | skipIfKeyUp =>
    exact hskip _
  | ret =>
    have hslot := topSlot_le hstack (pos_sp_of_faultOf_ret hf)
    rw [nextPc_ret]
    omega
  | waitKey => simp only [nextPc]; split <;> omega
  | sys | clearScreen | loadByte | addByte | loadReg | or | and | xor | addReg | subReg | shiftRight | subNReg | shiftLeft
  | loadIndex | random | draw | loadDelay | setDelay | setSound | addIndex | loadFont | storeBCD | storeRegs | loadRegs
  | noOp => simp only [nextPc]; omega

omit hf in
/-- CALL pushes a pc within the fetch bound, RET takes a slot out of use, and no other instruction touches the stack. -/
theorem stackBounded_resultOf (hpc : s.pc.toNat ≤ 0x0FFE) (hstack : s.StackBounded) : (resultOf i s).StackBounded := by
  have hframe := keptExcept_resultOf i s
  cases i with
  | ret => exact fun k hk => hstack k (by simp only [resultOf, State.returned] at hk; omega)
  | callSubroutine nnn =>
    intro k hk
    simp only [resultOf, State.called, Fin.val_ofNat, Fin.getElem_fin, Vector.getElem_setIfInBounds] at hk ⊢
    split
    · exact hpc
    · exact hstack k (by omega)
  | sys | clearScreen | jump | skipIfEqualByte | skipIfNotEqualByte | skipIfEqualReg | loadByte | addByte | loadReg | or
  | and | xor | addReg | subReg | shiftRight | subNReg | shiftLeft | skipIfNotEqualReg | loadIndex | jumpV0 | random | draw
  | skipIfKeyDown | skipIfKeyUp | loadDelay | waitKey | setDelay | setSound | addIndex | loadFont | storeBCD | storeRegs
  | loadRegs | noOp => exact stackBounded_congr hstack (hframe .stack (by simp [writes])) (hframe .sp (by simp [writes]))

theorem inv_resultOf (hinv : s.Inv) (hfault : s.fault = none) (hpc : s.pc.toNat ≤ 0x0FFE) : (resultOf i s).Inv where
  memory := by rw [resultOf_cfg]; exact wf_resultOf hf hinv.memory
  acc := by rw [resultOf_acc, resultOf_cfg]; exact hinv.acc
  pc := by rw [toNat_resultOf_pc hpc hf hinv.stack]; exact nextPc_le hf hpc hinv.stack
  stack := stackBounded_resultOf hpc hinv.stack
  fault := by intro r hr; rw [resultOf_fault, hfault] at hr; cases hr

end

/-! ### The invariant over a step -/

theorem inv_takeFault {s : State} (hinv : s.Inv) {c : Fault} {w : Option Word} (hw : w = none ↔ c = .fetchOutOfRange) :
    (takeFault c w s).Inv where
  memory := hinv.memory
  acc := hinv.acc
  pc := hinv.pc
  stack := hinv.stack
  fault := by rintro _ ⟨⟩; exact ⟨rfl, hw⟩

theorem inv_countStep_dropRnd {s : State} (hinv : s.Inv) : s.countStep.dropRnd.Inv where
  memory := by simpa using hinv.memory
  acc := by
    have := hinv.acc
    simp only [State.dropRnd_acc, State.dropRnd_cfg, State.countStep_cfg, State.countStep_acc]
    split <;> omega
  pc := by simpa using hinv.pc
  stack := stackBounded_congr hinv.stack (State.countStep_stack s) (State.countStep_sp s)
  fault := by simpa using hinv.fault

theorem inv_step {s t : State} (hinv : s.Inv) (h : step s = .next t) : t.Inv := by
  rcases step_outcomes s with ⟨_, hs⟩ | ⟨_, _, hs⟩ | ⟨_, _, c, hc, hs⟩ | ⟨hfault, hpc, hn, hs⟩ <;>
    obtain rfl := Host.Outcome.next.inj (hs.symm.trans h)
  · exact hinv
  · exact inv_takeFault hinv (by decide)
  · exact inv_takeFault hinv (by simp [faultOf_ne_fetchOutOfRange hc])
  · exact inv_countStep_dropRnd (inv_resultOf hn hinv hfault hpc)

/-! ### The invariant over a run -/

theorem inv_withRnd {s : State} (hinv : s.Inv) (q : List Byte) : (s.withRnd q).Inv :=
  ⟨hinv.memory, hinv.acc, hinv.pc, hinv.stack, hinv.fault⟩

theorem inv_setKey {s : State} (hinv : s.Inv) (k : Key) (pressed : Bool) : (s.setKey k pressed).Inv :=
  ⟨hinv.memory, hinv.acc, hinv.pc, hinv.stack, hinv.fault⟩

theorem inv_resetWith {cfg : Config} (h : 1 ≤ cfg.cyclesPerTick) : (State.resetWith cfg).Inv where
  memory := rfl
  acc := h
  pc := by simp [State.resetWith, programStart]
  stack := by simp [State.resetWith]
  fault := by simp [State.resetWith]

theorem inv_resetAction {s : State} (hinv : s.Inv) : s.resetAction.Inv :=
  have hreset := inv_resetWith (Nat.zero_lt_of_lt hinv.acc)
  ⟨hreset.memory, hreset.acc, hreset.pc, hreset.stack, hreset.fault⟩

theorem State.load_of_length_le {s : State} {image : List Byte} (h : image.length ≤ 0xE00) :
    s.load image = s.setBytesFrom 0x200 image := if_pos ((loadAccepted_iff image).2 h)

theorem State.load_of_lt_length {s : State} {image : List Byte} (h : 0xE00 < image.length) : s.load image = s :=
  if_neg fun ha => absurd ((loadAccepted_iff image).1 ha) (Nat.not_le.2 h)

/-- A load, accepted or rejected, touches memory alone (R294). -/
theorem keptExcept_load (s : State) (image : List Byte) : keptExcept [.mem] s (s.load image) := by
  rcases Nat.lt_or_ge 0xE00 image.length with h | h
  · rw [State.load_of_lt_length h]; exact keptExcept_refl _ s
  · rw [State.load_of_length_le h]; exact keptExcept_setBytesFrom s _ image

theorem inv_load {s : State} (hinv : s.Inv) (image : List Byte) : (s.load image).Inv := by
  rcases Nat.lt_or_ge 0xE00 image.length with h | h
  · rwa [State.load_of_lt_length h]
  · rw [State.load_of_length_le h]
    exact {
      memory := by
        rw [State.setBytesFrom_cfg]
        exact State.wf_setBytesFrom hinv.memory (by rw [memSize]; omega)
      acc := by simpa using hinv.acc
      pc := by simpa using hinv.pc
      stack := stackBounded_congr hinv.stack (State.setBytesFrom_stack ..) (State.setBytesFrom_sp ..)
      fault := by simpa using hinv.fault }

/-- Every step answers a next state, under the same parameters. -/
theorem step_answers (s : State) : ∃ t, step s = .next t ∧ t.cfg = s.cfg := by
  rcases step_outcomes s with ⟨_, hs⟩ | ⟨_, _, hs⟩ | ⟨_, _, _, _, hs⟩ | ⟨_, _, _, hs⟩
  · exact ⟨_, hs, rfl⟩
  · exact ⟨_, hs, rfl⟩
  · exact ⟨_, hs, rfl⟩
  · exact ⟨_, hs, (State.countStep_cfg _).trans (resultOf_cfg ..)⟩

/-- Every action answers a next state, under the same parameters; a step is the step with its one random byte supplied. -/
theorem perform_answers (a : HostAction) (s : State) : ∃ t, perform a s = .next t ∧ t.cfg = s.cfg := by
  cases a with
  | step rnd =>
    obtain ⟨t, ht, hcfg⟩ := step_answers (s.withRnd [rnd])
    exact ⟨_, stepWith_of_step ht, hcfg⟩
  | setKey k pressed => exact ⟨_, rfl, rfl⟩
  | reset => exact ⟨_, rfl, rfl⟩
  | load image => exact ⟨_, rfl, keptExcept_load s image .cfg (by decide)⟩

theorem inv_perform {a : HostAction} {s t : State} (hinv : s.Inv) (h : perform a s = .next t) : t.Inv := by
  cases a with
  | step rnd =>
    obtain ⟨u, hu, _⟩ := step_answers (s.withRnd [rnd])
    obtain rfl := Host.Outcome.next.inj ((stepWith_of_step hu).symm.trans h)
    exact inv_withRnd (inv_step (inv_withRnd hinv [rnd]) hu) s.rndQueue
  | setKey k pressed => cases h; exact inv_setKey hinv k pressed
  | reset => cases h; exact inv_resetAction hinv
  | load image => cases h; exact inv_load hinv image

theorem run_cons {a : HostAction} {s t : State} (h : perform a s = .next t) (as : List HostAction) :
    run (a :: as) s = run as t := by
  rw [run, h]

/-! ### The canonical form of memory -/

theorem Memory.wfFrom_cons {font : Font} {lo a : Nat} {u : Byte} {m : Memory} :
    Memory.wfFrom font lo ((a, u) :: m) = true ↔
      lo ≤ a ∧ a < memSize ∧ u ≠ Memory.blank font a ∧ Memory.wfFrom font (a + 1) m = true := by
  simp [Memory.wfFrom, and_assoc]

theorem Memory.read_cons_self {font : Font} {a : Nat} {u : Byte} {m : Memory} : Memory.read font ((a, u) :: m) a = u :=
  if_pos rfl

/-- A canonical list differs, at the first address it lists, from every canonical list that begins above. -/
theorem Memory.read_head_ne {font : Font} {lo a : Nat} {u : Byte} {m m' : Memory}
    (h : Memory.wfFrom font lo ((a, u) :: m) = true) (h' : Memory.wfFrom font (a + 1) m' = true) :
    Memory.read font ((a, u) :: m) a ≠ Memory.read font m' a := by
  rw [Memory.read_cons_self, Memory.read_of_lt h' (Nat.lt_succ_self a)]
  exact (Memory.wfFrom_cons.1 h).2.2.1

theorem Memory.eq_of_read_eq {font : Font} {m : Memory} : ∀ {m' : Memory} {lo lo' : Nat},
    Memory.wfFrom font lo m = true → Memory.wfFrom font lo' m' = true →
    (∀ a, Memory.read font m a = Memory.read font m' a) → m = m' := by
  induction m with
  | nil =>
    intro m' lo lo' _ h' hread
    cases m' with
    | nil => rfl
    | cons c m' => exact absurd (hread c.1).symm (Memory.read_head_ne h' rfl)
  | cons c m ih =>
    obtain ⟨a, u⟩ := c
    intro m' lo lo' h h' hread
    cases m' with
    | nil => exact absurd (hread a) (Memory.read_head_ne h rfl)
    | cons c' m' =>
      obtain ⟨b, w⟩ := c'
      obtain ⟨_, ha, hu, hm⟩ := Memory.wfFrom_cons.1 h
      obtain ⟨_, hb, hw, hm'⟩ := Memory.wfFrom_cons.1 h'
      rcases Nat.lt_trichotomy a b with hlt | rfl | hlt
      · exact absurd (hread a) (Memory.read_head_ne h (Memory.wfFrom_cons.2 ⟨hlt, hb, hw, hm'⟩))
      · have huw : u = w := by simpa only [Memory.read_cons_self] using hread a
        rw [huw, ih hm hm' fun x => ?_]
        by_cases hx : x = a
        · rw [hx, Memory.read_of_lt hm (Nat.lt_succ_self a), Memory.read_of_lt hm' (Nat.lt_succ_self a)]
        · simpa only [Memory.read, if_neg hx] using hread x
      · exact absurd (hread b).symm (Memory.read_head_ne h' (Memory.wfFrom_cons.2 ⟨hlt, ha, hu, hm⟩))

/-! ### The obligations -/

/-- Settles O20: `inv_resetWith`, and the default ratio is 9. -/
theorem resetSatisfiesInvariant : Obligations.ResetSatisfiesInvariant :=
  ⟨fun _ => inv_resetWith, inv_resetWith (cfg := Config.standard) (by decide)⟩

/-- Settles O21: `inv_step`, one case for each outcome of a step. -/
theorem stepKeepsInvariant : Obligations.StepKeepsInvariant := fun _ _ => inv_step

/-- Settles O22, by induction on the actions: each keeps the invariant (`inv_perform`). -/
theorem runKeepsInvariant : Obligations.RunKeepsInvariant := by
  intro as
  induction as with
  | nil => intro s t hinv h; cases h; exact hinv
  | cons a as ih =>
    intro s t hinv h
    obtain ⟨u, hu, _⟩ := perform_answers a s
    exact ih u t (inv_perform hinv hu) (run_cons hu as ▸ h)

/-- Settles O23, by induction on the actions: each answers a state under the same parameters (`perform_answers`). -/
theorem runsGoOnUnderFixedParameters : Obligations.RunsGoOnUnderFixedParameters := by
  intro as
  induction as with
  | nil => exact fun s => ⟨s, rfl, rfl⟩
  | cons a as ih =>
    intro s
    obtain ⟨u, hu, hcfg⟩ := perform_answers a s
    obtain ⟨t, ht, htcfg⟩ := ih u
    exact ⟨t, (run_cons hu as).trans ht, htcfg.trans hcfg⟩

/-- Settles O24: `Memory.eq_of_read_eq`, by induction on the two lists. -/
theorem canonicalMemoryIsUnique : Obligations.CanonicalMemoryIsUnique := fun _ _ _ => Memory.eq_of_read_eq

/-- Settles O25: the glyphs are evaluated byte by byte; above the font an unlisted address reads as 0. -/
theorem resetState : Obligations.ResetState := by
  refine ⟨by decide, fun a ha => ?_, by decide, rfl, rfl, by decide, rfl, rfl, rfl, by decide, rfl, rfl,
    fun x y => Display.pixel_clear x y, rfl, rfl⟩
  exact (State.byteAt_resetWith _ a).trans (dif_neg (Nat.not_lt.2 ha))

/-- Settles O59: an accepted image is one block write at 0x200, inside memory; a longer one is none. -/
theorem loadPlacesTheImage : Obligations.LoadPlacesTheImage := by
  intro s image hwf
  refine ⟨fun hlen => ⟨fun k hk => ?_, fun a ha => ?_, keptExcept_load s image⟩, State.load_of_lt_length⟩
  · rw [State.load_of_length_le hlen]
    exact State.byteAt_setBytesFrom_same hk hwf (by rw [memSize]; omega)
  · rw [State.load_of_length_le hlen, State.byteAt_setBytesFrom_other ha]

/-- Settles O60: reset writes every element but the random input; a step of a halted core is no step, and a key or a load
does not write FAULT. -/
theorem onlyResetClearsAFault : Obligations.OnlyResetClearsAFault := by
  refine ⟨fun s => by apply keptExcept_of_fields <;> simp [State.resetAction], fun a s t hfault hne h => ?_⟩
  cases a with
  | step rnd =>
    obtain rfl := Host.Outcome.next.inj ((stepWith_of_step (step_of_halted (s := s.withRnd [rnd]) hfault)).symm.trans h)
    rfl
  | setKey k pressed => cases h; rfl
  | reset => exact absurd rfl hne
  | load image => cases h; exact keptExcept_load s image .fault (by decide)

end Sys2Proof.Machine
end

section
/-! Proofs of spec/40_flow.md: JP V0, CALL, RET and the skips on two registers. -/

namespace Sys2Proof.Machine

/-! ### The return stack after CALL and RET -/

theorem State.val_called_sp {s : State} (h : s.sp.val < 16) (nnn : Addr12) :
    (s.called nnn).sp.val = s.sp.val + 1 := by
  rw [State.called_of_lt h]

theorem State.getElem_called_stack (s : State) (nnn : Addr12) (k : Fin 16) :
    (s.called nnn).stack[k] = if k.val = s.sp.val then s.pc else s.stack[k] := by
  simp [State.called, Vector.getElem_setIfInBounds, eq_comm]

theorem State.returned_pc {s : State} {k : Fin 16} (h : s.sp.val = k.val + 1) : s.returned.pc = s.stack[k] + 2 := by
  simp [State.returned, h]

theorem State.val_returned_sp (s : State) : s.returned.sp.val = s.sp.val - 1 := rfl

theorem faultOf_callSubroutine_none {s : State} (h : s.sp.val < 16) (nnn : Addr12) :
    faultOf (.callSubroutine nnn) s = none := if_neg (Nat.ne_of_lt h)

theorem faultOf_ret_none {s : State} (h : 0 < s.sp.val) : faultOf .ret s = none := if_neg (Nat.ne_of_gt h)

section
variable {s : State} (hfault : s.fault = none) (hpc : s.pc.toNat ≤ 0x0FFE) {k : Fin 16}
include hfault hpc

/-- A step at a CALL with the slot k next: the pc goes into the slot, and memory stays. -/
theorem step_of_callSubroutine {nnn : Addr12} (hcall : decode s.fetchWord = .callSubroutine nnn) (hsp : s.sp.val = k.val) :
    ∃ t, step s = .next t ∧ t.fault = none ∧ t.pc = addr nnn ∧ t.sp.val = k.val + 1 ∧ t.stack[k] = s.pc ∧
      ∀ a, t.byteAt a = s.byteAt a := by
  have hlt : s.sp.val < 16 := by omega
  have hframe := (keptExcept_called s nnn).trans (keptExcept_countStep_dropRnd _)
  refine ⟨_, step_of_decode hfault hpc hcall (faultOf_callSubroutine_none hlt nnn),
    (hframe .fault (by decide)).trans hfault, State.countStep_pc _, ?_, ?_, hframe .mem (by decide)⟩
  · rw [State.dropRnd_sp, State.countStep_sp, ← hsp]
    exact State.val_called_sp hlt nnn
  · simp only [State.dropRnd_stack, State.countStep_stack]
    exact (State.getElem_called_stack s nnn k).trans (if_pos hsp.symm)

/-- A step at a RET with the slot k last in use: the pc goes 2 past the address in the slot, which keeps it. -/
theorem step_of_ret (hret : decode s.fetchWord = .ret) (hsp : s.sp.val = k.val + 1) :
    ∃ u, step s = .next u ∧ u.pc = s.stack[k] + 2 ∧ u.sp.val = k.val ∧ u.stack = s.stack := by
  refine ⟨_, step_of_decode hfault hpc hret (faultOf_ret_none (by omega)), ?_, ?_, ?_⟩
  · rw [State.dropRnd_pc, State.countStep_pc]
    exact State.returned_pc hsp
  · rw [State.dropRnd_sp, State.countStep_sp, resultOf, State.val_returned_sp, hsp]
    rfl
  · rw [State.dropRnd_stack, State.countStep_stack]
    rfl

end

/-! ### The obligations -/

/-- Settles O29: the pc is set to `jumpV0Target`, a sum that does not wrap (`toNat_jumpV0Target`). -/
theorem jumpV0SetsPcToTheExactSum : Obligations.JumpV0SetsPcToTheExactSum := fun nnn s =>
  ⟨decode_of_eq_encode rfl (ofNat_eq_wordNNN_of_fixed (by decide) nnn), s.setPc (jumpV0Target nnn s), rfl,
    toNat_jumpV0Target nnn s, keptExcept_setPc s _⟩

/-- Settles O30: below 16 slots the answer is `State.called`; with 16 it is the fault table's row. -/
theorem callPushesItsOwnAddress : Obligations.CallPushesItsOwnAddress := by
  intro nnn s
  refine ⟨fun hsp => ?_, fun hsp => ?_⟩
  · exact ⟨s.called nnn, exec_of_faultOf_none (faultOf_callSubroutine_none hsp nnn), State.val_called_sp hsp nnn,
      addr_toNat nnn, State.getElem_called_stack s nnn, (keptExcept_called s nnn).mono (by decide)⟩
  · exact exec_of_faultOf_some_of_word (if_pos hsp) (ofNat_eq_wordNNN_of_fixed (by decide) nnn)

/-- Settles O31: with a slot in use the answer is `State.returned`; with none it is the fault table's row. -/
theorem returnPopsAndAdvances : Obligations.ReturnPopsAndAdvances := by
  intro s
  refine ⟨fun k hsp => ?_, fun hsp => exec_of_faultOf_some_of_word (if_pos hsp) rfl⟩
  exact ⟨s.returned, exec_of_faultOf_none (faultOf_ret_none (by omega)), by rw [State.val_returned_sp, hsp]; rfl,
    State.returned_pc hsp, (keptExcept_returned s).mono (by decide)⟩

/-- Settles O32: after the first step (`step_of_callSubroutine`) the slot k holds the old pc and memory is as before, so
the second step fetches RET, which takes that slot (`step_of_ret`). -/
theorem callThenReturnComesBack : Obligations.CallThenReturnComesBack := by
  intro s nnn hfault hpc hnnn hword hhigh hlow k hsp
  have hcall : decode s.fetchWord = .callSubroutine nnn :=
    decode_of_eq_encode rfl (hword.trans (ofNat_eq_wordNNN_of_fixed (by decide) nnn))
  obtain ⟨t, hst, htfault, htpc, htsp, htstack, htbyte⟩ := step_of_callSubroutine hfault hpc hcall hsp
  have hret : decode t.fetchWord = .ret := by
    rw [State.fetchWord, htpc, addr_toNat, htbyte, htbyte, hhigh, hlow]
    decide
  obtain ⟨u, htu, hupc, husp, hustack⟩ := step_of_ret htfault (by rwa [htpc, addr_toNat]) hret htsp
  refine ⟨u, (core_run_succ 1 hst).trans (core_run_succ 0 htu), ?_, Fin.ext (husp.trans hsp.symm), ?_⟩
  · rw [hupc, htstack]
  · rw [hustack, htstack]

/-- Settles O34: both skips are `skipIf`, whose test decides the equality for SE and the inequality for SNE. -/
theorem skipsOnARegister : Obligations.SkipsOnARegister := by
  intro x y s
  have hse (y : Reg) : exec (.skipIfEqualReg x y) s =
      .next { s with pc := if s.reg x = s.reg y then s.pc + 4 else s.pc + 2 } :=
    congrArg _ (State.skipIf_eq_of_iff beq_iff_eq s)
  have hsne (y : Reg) : exec (.skipIfNotEqualReg x y) s =
      .next { s with pc := if s.reg x ≠ s.reg y then s.pc + 4 else s.pc + 2 } :=
    congrArg _ (State.skipIf_eq_of_iff bne_iff_ne s)
  exact ⟨hse y, hsne y, by rw [hse, if_pos rfl], by rw [hsne, if_neg (not_not_intro rfl)]⟩

end Sys2Proof.Machine
end

section
/-! Proofs of spec/41_alu.md: the logic operations, the operations with a flag, and RND. First the flags as numbers, then
what writing a result and a flag and advancing does to the whole state. -/

namespace Sys2Proof.Machine

/-! ### The flags and the shift source -/

theorem flagByte_decide (p : Prop) [Decidable p] : flagByte (decide p) = if p then 1 else 0 := by
  simp [flagByte]

theorem toNat_flagByte (c : Bool) : (flagByte c).toNat = c.toNat := by cases c <;> rfl

theorem toNat_flagByte_getLsbD (src : Byte) (j : Nat) : (flagByte (src.getLsbD j)).toNat = src.toNat / 2 ^ j % 2 := by
  rw [toNat_flagByte, ← BitVec.testBit_toNat, Nat.toNat_testBit]

theorem shiftOperand_eq (x y : Reg) (s : State) :
    shiftOperand x y s = if s.shiftSource = .vy then s.reg y else s.reg x := by
  cases h : s.shiftSource <;> simp [shiftOperand, h]

theorem State.shiftSource_of_some {s : State} {c : ShiftSource} (h : s.cfg.shiftSource = some c) : s.shiftSource = c := by
  rw [State.shiftSource, h, Option.getD_some]

theorem toNat_sub_byte (a b : Byte) : (a - b).toNat = (a.toNat + 256 - b.toNat) % 256 := by
  rw [BitVec.toNat_sub]
  omega

/-! ### What writing a result and a flag and advancing does to the whole state -/

/-- An execute that writes a result and a flag and advances: the flag wins in VF (R130), and no other register and no
other element but the pc changes. -/
theorem exec_of_setResultAndFlag_advance {i : Instr} {s : State} {x : Reg} {u : Byte} {c : Bool}
    (h : exec i s = .next (s.setResultAndFlag x u c).advance) :
    ∃ t, exec i s = .next t ∧ (x ≠ vf → t.reg x = u) ∧ t.reg vf = flagByte c ∧
      (∀ r, r ≠ x → r ≠ vf → t.reg r = s.reg r) ∧ t.pc = s.pc + 2 ∧ keptExcept [.v, .pc] s t := by
  have hreg (r : Reg) := (State.reg_advance _ r).trans (State.reg_setResultAndFlag s x r u c)
  refine ⟨_, h, fun hx => ?_, ?_, fun r hx hvf => ?_, State.advance_pc _,
    (keptExcept_setResultAndFlag s x u c).then_advance.mono (by decide)⟩
  · rw [hreg, if_neg hx, if_pos rfl]
  · rw [hreg, if_pos rfl]
  · rw [hreg, if_neg hvf, if_neg hx]

/-! ### The obligations -/

/-- Settles O36: each is one register write (`exec_of_setReg_advance`), whose bits are those of the bit vector operation. -/
theorem bitwiseLogic : Obligations.BitwiseLogic := by
  intro x y s
  refine ⟨?_, ?_, ?_⟩
  · obtain ⟨t, ht, hx, hframe⟩ := exec_of_setReg_advance (i := .or x y) (s := s) rfl
    exact ⟨t, ht, fun b _ => by rw [hx, BitVec.getLsbD_or], hframe⟩
  · obtain ⟨t, ht, hx, hframe⟩ := exec_of_setReg_advance (i := .and x y) (s := s) rfl
    exact ⟨t, ht, fun b _ => by rw [hx, BitVec.getLsbD_and], hframe⟩
  · obtain ⟨t, ht, hx, hframe⟩ := exec_of_setReg_advance (i := .xor x y) (s := s) rfl
    exact ⟨t, ht, fun b _ => by rw [hx, BitVec.getLsbD_xor], hframe⟩

/-- Settles O37: the sum of bytes is modulo 256, and the flag is the carry. -/
theorem addSetsCarry : Obligations.AddSetsCarry := by
  intro x y s
  obtain ⟨t, ht, hx, hvf, hframe⟩ := exec_of_setResultAndFlag_advance (i := .addReg x y) (s := s) rfl
  exact ⟨decode_of_eq_encode rfl (ofNat_eq_wordXYN_of_fixed (by decide) x y), t, ht,
    fun hne => by rw [hx hne, BitVec.toNat_add], hvf.trans (flagByte_decide _), hframe⟩

/-- Settles O38: the difference of bytes is modulo 256, and the flag is the strict comparison. -/
theorem subSetsStrictNoBorrow : Obligations.SubSetsStrictNoBorrow := by
  intro x y s
  obtain ⟨t, ht, hx, hvf, hframe⟩ := exec_of_setResultAndFlag_advance (i := .subReg x y) (s := s) rfl
  exact ⟨decode_of_eq_encode rfl (ofNat_eq_wordXYN_of_fixed (by decide) x y), t, ht,
    fun hne => by rw [hx hne, toNat_sub_byte], hvf.trans (flagByte_decide _), hframe⟩

/-- Settles O39: the mirror of O38. -/
theorem subNSetsStrictNoBorrow : Obligations.SubNSetsStrictNoBorrow := by
  intro x y s
  obtain ⟨t, ht, hx, hvf, hframe⟩ := exec_of_setResultAndFlag_advance (i := .subNReg x y) (s := s) rfl
  exact ⟨decode_of_eq_encode rfl (ofNat_eq_wordXYN_of_fixed (by decide) x y), t, ht,
    fun hne => by rw [hx hne, toNat_sub_byte], hvf.trans (flagByte_decide _), hframe⟩

/-- Settles O40: the shift halves the source, and the flag is its bit 0. -/
theorem shiftRightByOne : Obligations.ShiftRightByOne := by
  intro x y s
  refine ⟨decode_of_eq_encode rfl (ofNat_eq_wordXYN_of_fixed (by decide) x y), fun _ => State.shiftSource_of_some,
    fun src hsrc => ?_⟩
  obtain rfl : src = shiftOperand x y s := hsrc.trans (shiftOperand_eq x y s).symm
  obtain ⟨t, ht, hx, hvf, hframe⟩ := exec_of_setResultAndFlag_advance (i := .shiftRight x y) (s := s) rfl
  refine ⟨t, ht, fun hne => ?_, ?_, hframe⟩
  · rw [hx hne, BitVec.toNat_ushiftRight, Nat.shiftRight_eq_div_pow, Nat.pow_one]
  · rw [hvf, shiftedOutRight, toNat_flagByte_getLsbD, Nat.pow_zero, Nat.div_one]

/-- Settles O41: the shift doubles the source modulo 256, and the flag is its bit 7. -/
theorem shiftLeftByOne : Obligations.ShiftLeftByOne := by
  intro x y s
  refine ⟨decode_of_eq_encode rfl (ofNat_eq_wordXYN_of_fixed (by decide) x y), fun _ => State.shiftSource_of_some,
    fun src hsrc => ?_⟩
  obtain rfl : src = shiftOperand x y s := hsrc.trans (shiftOperand_eq x y s).symm
  obtain ⟨t, ht, hx, hvf, hframe⟩ := exec_of_setResultAndFlag_advance (i := .shiftLeft x y) (s := s) rfl
  refine ⟨t, ht, fun hne => ?_, ?_, hframe⟩
  · rw [hx hne, BitVec.toNat_shiftLeft, Nat.shiftLeft_eq, Nat.pow_one]
  · rw [hvf, shiftedOutLeft, toNat_flagByte_getLsbD]
    omega

/-- Settles O42: one register write, whose bits are those of the step's byte and `kk`. -/
theorem randomMasksTheStepsByte : Obligations.RandomMasksTheStepsByte := by
  intro x kk s
  refine ⟨fun b q hq => by rw [State.rnd, hq, List.headD_cons], ?_⟩
  obtain ⟨t, ht, hx, hframe⟩ := exec_of_setReg_advance (i := .random x kk) (s := s) rfl
  exact ⟨t, ht, fun j _ => by rw [hx, BitVec.getLsbD_and], hframe⟩

end Sys2Proof.Machine
end

section
/-! Proofs of spec/42_index_memory.md and spec/20_memory.md: the arithmetic of I, the block instructions, and a block as
the sequence of its bytes. -/

namespace Sys2Proof.Machine

/-! ### I as a number -/

theorem toNat_glyphAddr (v : Byte) : (glyphAddr v).toNat = 5 * v.toNat := by
  have hv := v.isLt
  rw [glyphAddr, BitVec.toNat_mul, zext16_toNat]
  exact Nat.mod_eq_of_lt (by change 5 * v.toNat < 65536; omega)

/-- I moves past a block inside memory without wrapping (R174, R175). -/
theorem toNat_index_past {i : Word} {x : Reg} (h : i.toNat + x.val ≤ 0x0FFF) :
    (i + BitVec.ofNat 16 (x.val + 1)).toNat = i.toNat + x.val + 1 := by
  rw [BitVec.toNat_add, BitVec.toNat_ofNat]
  omega

/-! ### A block as the sequence of its bytes (R52 to R54, R57) -/

theorem memRead_of_le {s : State} {a : Nat} (h : a ≤ 0x0FFF) : memRead s a = .ok (s.byteAt a) := if_neg (Nat.not_lt.2 h)

theorem memRead_of_lt {s : State} {a : Nat} (h : 0x0FFF < a) : memRead s a = .error .memoryOutOfRange := if_pos h

theorem memWrite_of_le {s : State} {a : Nat} (h : a ≤ 0x0FFF) (u : Byte) : memWrite s a u = .ok (s.setByte a u) :=
  if_neg (Nat.not_lt.2 h)

theorem memWrite_of_lt {s : State} {a : Nat} (h : 0x0FFF < a) (u : Byte) : memWrite s a u = .error .memoryOutOfRange :=
  if_pos h

/-- A block beginning inside memory leaves it exactly when the rest of the block does. -/
theorem blockOutOfRange_succ {a : Nat} (h : a ≤ 0x0FFF) (n : Nat) : blockOutOfRange a (n + 1) = blockOutOfRange (a + 1) n := by
  rw [Bool.eq_iff_iff, blockOutOfRange_iff, blockOutOfRange_iff]
  omega

theorem blockOutOfRange_succ_of_lt {a : Nat} (h : 0x0FFF < a) (n : Nat) : blockOutOfRange a (n + 1) = true := by
  rw [blockOutOfRange_iff]
  omega

theorem readBlock_succ (s : State) (a n : Nat) : readBlock s a (n + 1) = (do
    let u ← memRead s a
    let us ← readBlock s (a + 1) n
    pure (u :: us)) := by
  rcases Nat.lt_or_ge 0x0FFF a with h | h
  · rw [memRead_of_lt h, readBlock, if_pos (blockOutOfRange_succ_of_lt h n)]
    rfl
  · rw [memRead_of_le h, readBlock, blockOutOfRange_succ h, readBlock]
    split <;> rfl

theorem writeBlock_cons (s : State) (a : Nat) (u : Byte) (us : List Byte) : writeBlock s a (u :: us) = (do
    let t ← memWrite s a u
    writeBlock t (a + 1) us) := by
  rcases Nat.lt_or_ge 0x0FFF a with h | h
  · rw [memWrite_of_lt h, writeBlock, List.length_cons, if_pos (blockOutOfRange_succ_of_lt h _)]
    rfl
  · rw [memWrite_of_le h, writeBlock, List.length_cons, blockOutOfRange_succ h]
    rfl

theorem readBlock_eq_mapM (s : State) (n : Nat) : ∀ a, readBlock s a n = (List.range n).mapM fun k => memRead s (a + k) := by
  induction n with
  | zero => intro a; rfl
  | succ n ih =>
    intro a
    rw [readBlock_succ, ih, List.range_succ_eq_map, List.mapM_cons, List.mapM_map]
    simp only [Nat.add_zero, Function.comp_def, Nat.succ_eq_add_one, Nat.add_right_comm, Nat.add_assoc]

theorem writeBlock_eq_foldlM (us : List Byte) : ∀ (s : State) (a k : Nat),
    writeBlock s (a + k) us = (us.zipIdx k).foldlM (fun t p => memWrite t (a + p.2) p.1) s := by
  induction us with
  | nil => intro s a k; rfl
  | cons u us ih =>
    intro s a k
    rw [writeBlock_cons, List.zipIdx_cons, List.foldlM_cons]
    exact congrArg _ (funext fun t => ih t a (k + 1))

/-! ### The obligations -/

/-- Settles O44: each is one write of I and the standard advance (`keptExcept_advance_setIndex`). -/
theorem indexArithmetic : Obligations.IndexArithmetic := by
  intro x s
  refine ⟨⟨_, rfl, ?_, rfl, keptExcept_advance_setIndex s _⟩, _, rfl, toNat_glyphAddr _, rfl, keptExcept_advance_setIndex s _⟩
  rw [State.advance_i, State.setIndex_i, BitVec.toNat_add, zext16_toNat]

/-- Settles O45: inside memory the answer is one block write of the three digits, whose bytes read back as written; else
it is the fault table's row. -/
theorem storeBCDWritesThreeDigits : Obligations.StoreBCDWritesThreeDigits := by
  intro x s hwf
  refine ⟨fun hin => ?_, fun hout => ?_⟩
  · have hdigit {k : Nat} (hk : k < (decimalDigits (s.reg x)).length) :
        (resultOf (.storeBCD x) s).byteAt (s.i.toNat + k) = (decimalDigits (s.reg x))[k] := by
      rw [resultOf, State.byteAt_advance]
      exact State.byteAt_setBytesFrom_same hk hwf (show s.i.toNat + 3 ≤ 4096 by omega)
    have hlt (d : Nat) (hd : d < 256) : (BitVec.ofNat 8 d).toNat = d := Nat.mod_eq_of_lt hd
    have hv := (s.reg x).isLt
    refine ⟨_, exec_of_faultOf_none (if_neg (Nat.not_lt.2 hin)), ?_, ?_, ?_, fun a ha => byteAt_resultOf ?_, ?_,
      (keptExcept_resultOf (.storeBCD x) s).mono (by simp [writes])⟩
    · exact (congrArg BitVec.toNat (hdigit (k := 0) (Nat.succ_pos 2))).trans (hlt _ (by omega))
    · exact (congrArg BitVec.toNat (hdigit (k := 1) (show 1 < 3 by omega))).trans (hlt _ (by omega))
    · exact (congrArg BitVec.toNat (hdigit (k := 2) (show 2 < 3 by omega))).trans (hlt _ (by omega))
    · simp only [storesTo, storedBlock, Bool.and_eq_false_iff, decide_eq_false_iff_not]
      omega
    · simp [resultOf]
  · exact exec_of_faultOf_some_of_word (if_pos hout) (ofNat_eq_wordXKK_of_fixed (by decide) x)

/-- Settles O46: inside memory the answer is one block write of the registers, whose bytes read back as written; else it
is the fault table's row. -/
theorem storeRegsCopiesUpToX : Obligations.StoreRegsCopiesUpToX := by
  intro x s hwf
  have hword : BitVec.ofNat 16 (0xF055 + 256 * x.val) = encode (.storeRegs x) := ofNat_eq_wordXKK_of_fixed (by decide) x
  refine ⟨decode_of_eq_encode rfl hword, fun hin => ?_, fun hout => exec_of_faultOf_some_of_word (if_pos hout) hword⟩
  refine ⟨_, exec_of_faultOf_none (if_neg (Nat.not_lt.2 hin)), fun k hk => ?_, fun a ha => byteAt_resultOf ?_,
    toNat_index_past hin, ?_, (keptExcept_resultOf (.storeRegs x) s).mono (by simp [writes])⟩
  · have hlen : k.val < (s.regsUpTo x).length := by rw [State.length_regsUpTo]; omega
    rw [resultOf, State.byteAt_advance, State.byteAt_setIndex,
      State.byteAt_setBytesFrom_same hlen hwf (by rw [State.length_regsUpTo, memSize]; omega)]
    exact State.getElem_regsUpTo s x k.val hlen
  · simp only [storesTo, storedBlock, Bool.and_eq_false_iff, decide_eq_false_iff_not]
    omega
  · simp [resultOf]

/-- Settles O47: inside memory the answer is one load of the block's bytes into the first registers; else it is the fault
table's row. -/
theorem loadRegsCopiesUpToX : Obligations.LoadRegsCopiesUpToX := by
  intro x s
  have hword : BitVec.ofNat 16 (0xF065 + 256 * x.val) = encode (.loadRegs x) := ofNat_eq_wordXKK_of_fixed (by decide) x
  refine ⟨decode_of_eq_encode rfl hword, fun hin => ?_, fun hout => exec_of_faultOf_some_of_word (if_pos hout) hword⟩
  refine ⟨_, exec_of_faultOf_none (if_neg (Nat.not_lt.2 hin)), fun k hk => ?_, fun k hk => reg_resultOf ?_ s, ?_, ?_,
    (keptExcept_resultOf (.loadRegs x) s).mono (by simp [writes])⟩
  · have hlen : k.val < (s.bytesFrom s.i.toNat (x.val + 1)).length := by rw [State.length_bytesFrom]; omega
    rw [resultOf, State.reg_advance, State.reg_setIndex, State.reg_setRegsFrom0, ← List.getElem_eq_getD (h := hlen),
      State.getElem_bytesFrom]
  · simpa [writesReg] using hk
  · rw [resultOf, State.advance_i, State.setIndex_i, toNat_index_past hin]
  · simp [resultOf]

/-- Settles O48: by induction on the block, whose first byte has its own range check (`readBlock_succ`,
`writeBlock_cons`). -/
theorem blocksAreSequencesOfBytes : Obligations.BlocksAreSequencesOfBytes :=
  ⟨fun s a n => readBlock_eq_mapM s n a, fun s a us => writeBlock_eq_foldlM us s a 0⟩

end Sys2Proof.Machine
end

section
/-! Proofs of spec/43_display.md: the toggle as an involution, and DRW. First the display by its pixels, then the sprite
as the set of pixels it covers. -/

namespace Sys2Proof.Machine

/-! ### The display by its pixels -/

theorem Display.ext_pixel {d d' : Display} (h : ∀ x y, Display.pixel d x y = Display.pixel d' x y) : d = d' := by
  ext y hy x hx
  exact h ⟨x, hx⟩ ⟨y, hy⟩

theorem flagByte_eq_one_iff (c : Bool) : flagByte c = 1 ↔ c = true := by cases c <;> decide

theorem flagByte_eq_zero_or_one (c : Bool) : flagByte c = 0 ∨ flagByte c = 1 := by cases c <;> decide

/-! ### The pixels a sprite covers (R196, R197, R200) -/

theorem wrapPoint_eq_mk_iff {a b : Nat} {x : Fin 64} {y : Fin 32} :
    wrapPoint (a, b) = (x, y) ↔ a % 64 = x.val ∧ b % 32 = y.val := by
  rw [wrapPoint, Prod.mk.injEq, eq_comm, eq_wrapX_iff, eq_comm, @eq_comm _ (wrapY b), eq_wrapY_iff, @eq_comm _ y.val]

/-- A sprite covers a pixel where one of its points wraps to it. -/
theorem spriteCovers_iff {s : State} {xs ys n : Nat} {x : Fin 64} {y : Fin 32} :
    spriteCovers s xs ys n x y ↔ ∃ p ∈ spritePoints xs ys (s.bytesFrom s.i.toNat n), wrapPoint p = (x, y) := by
  constructor
  · rintro ⟨r, c, hr, hc, hbit, hx, hy⟩
    have hlen : r < (s.bytesFrom s.i.toNat n).length := by rwa [State.length_bytesFrom]
    refine ⟨(xs + c, ys + r), mem_spritePoints.2 ⟨r, c, hc, ⟨hlen, ?_⟩, rfl⟩, wrapPoint_eq_mk_iff.2 ⟨hx, hy⟩⟩
    rwa [State.getElem_bytesFrom]
  · rintro ⟨p, hp, hwrap⟩
    obtain ⟨r, c, hc, ⟨hr, hbit⟩, rfl⟩ := mem_spritePoints.1 hp
    rw [State.getElem_bytesFrom] at hbit
    rw [State.length_bytesFrom] at hr
    obtain ⟨hx, hy⟩ := wrapPoint_eq_mk_iff.1 hwrap
    exact ⟨r, c, hr, hc, hbit, hx, hy⟩

section
variable (s : State) (x y : Reg) (n : Rows)

/-- A sprite has at most 15 rows, so no two of its points wrap to one pixel. -/
theorem sprite_distinct (xs ys : Nat) :
    (spritePoints xs ys (s.bytesFrom s.i.toNat n.val)).Pairwise fun p q => wrapPoint p ≠ wrapPoint q :=
  spritePoints_distinct (by rw [State.length_bytesFrom]; omega)

/-- DRW flips the covered pixels and no other (the XOR law of R200). -/
theorem pixel_drawn (px : Fin 64) (py : Fin 32) : Display.pixel (s.drawn x y n).1 px py = true ↔
    (Display.pixel s.display px py = true ↔ ¬ spriteCovers s (s.reg x).toNat (s.reg y).toNat n.val px py) := by
  rw [spriteCovers_iff, State.drawn, drawSprite, Display.pixel_toggleAll_distinct (sprite_distinct ..)]
  cases Display.pixel s.display px py <;> simp

theorem drawn_snd : (s.drawn x y n).2 = true ↔
    ∃ px py, spriteCovers s (s.reg x).toNat (s.reg y).toNat n.val px py ∧ Display.pixel s.display px py = true := by
  simp only [spriteCovers_iff]
  rw [State.drawn, drawSprite, Display.toggleAll_snd_distinct (sprite_distinct ..)]
  constructor
  · rintro ⟨p, hp, hlit⟩
    exact ⟨_, _, ⟨p, hp, rfl⟩, hlit⟩
  · rintro ⟨_, _, ⟨p, hp, hwrap⟩, hlit⟩
    cases hwrap
    exact ⟨p, hp, hlit⟩

theorem reg_vf_resultOf_draw : (resultOf (.draw x y n) s).reg vf = flagByte (s.drawn x y n).2 := by
  rw [resultOf, State.reg_advance, State.setFlag, State.reg_setReg_same]

end

/-- A sprite toggled twice from one display leaves that display: each pixel is flipped twice or never. -/
theorem drawSprite_twice {d : Display} {xs ys : Nat} {rows : List Byte} (h : rows.length ≤ 32) :
    (drawSprite (drawSprite d xs ys rows).1 xs ys rows).1 = d := by
  have hdistinct := spritePoints_distinct (xs := xs) (ys := ys) h
  refine Display.ext_pixel fun x y => ?_
  rw [drawSprite, drawSprite, Display.pixel_toggleAll_distinct hdistinct, Display.pixel_toggleAll_distinct hdistinct,
    Bool.xor_assoc, Bool.xor_self, Bool.xor_false]

/-! ### The obligations -/

/-- Settles O51: by pixels, each of which `Display.pixel_togglePixel` flips twice or never. -/
theorem togglePixelIsAnInvolution : Obligations.TogglePixelIsAnInvolution := by
  intro d px py
  refine ⟨Display.ext_pixel fun x y => ?_, ?_⟩
  · rw [Display.pixel_togglePixel, Display.pixel_togglePixel]
    split
    · rw [Bool.not_not]
    · rfl
  · rw [Display.togglePixel_snd, Display.togglePixel_snd, Display.pixel_togglePixel, if_pos ⟨rfl, rfl⟩]

/-- Settles O52: the answer writes the drawn display and the collision flag, which are `pixel_drawn` and `drawn_snd`; a
sprite that leaves memory is the fault table's row. -/
theorem drawXorsTheSprite : Obligations.DrawXorsTheSprite := by
  intro x y n s
  refine ⟨fun hin => ?_, fun hpos hout => ?_⟩
  · refine ⟨_, exec_of_faultOf_none (if_neg hin), pixel_drawn s x y n, ?_, ?_, fun r hr => reg_resultOf ?_ s, rfl,
      (keptExcept_resultOf (.draw x y n) s).mono (by simp [writes])⟩
    · rw [reg_vf_resultOf_draw]
      exact flagByte_eq_zero_or_one _
    · rw [reg_vf_resultOf_draw, flagByte_eq_one_iff, drawn_snd]
    · simpa [writesReg] using hr
  · exact exec_of_faultOf_some_of_word (if_pos ⟨hpos, hout⟩) (ofNat_eq_wordXYN 0xD x y n.val)

/-- Settles O53: the second draw reads the same coordinates, I and bytes (`reg_resultOf`, `keptExcept_resultOf`), so
`drawSprite_twice` applies. -/
theorem drawTwiceRestoresTheDisplay : Obligations.DrawTwiceRestoresTheDisplay := by
  intro x y n s t u hx hy hf ht hu
  obtain rfl := Host.Outcome.next.inj ((exec_of_faultOf_none hf).symm.trans ht)
  have hkept := keptExcept_resultOf (.draw x y n) s
  have hi : (resultOf (.draw x y n) s).i = s.i := hkept .i (by simp [writes])
  have hreg {r : Reg} (hr : r ≠ vf) : (resultOf (.draw x y n) s).reg r = s.reg r :=
    reg_resultOf (by simpa [writesReg] using hr) s
  have hbytes := State.bytesFrom_congr (hkept .mem (by simp [writes])) n.val s.i.toNat
  have hf' : faultOf (.draw x y n) (resultOf (.draw x y n) s) = none := by rw [faultOf, hi]; exact hf
  obtain rfl := Host.Outcome.next.inj ((exec_of_faultOf_none hf').symm.trans hu)
  change (State.drawn _ x y n).1 = s.display
  rw [State.drawn, hreg hx, hreg hy, hi, hbytes]
  exact drawSprite_twice (by rw [State.length_bytesFrom]; omega)

end Sys2Proof.Machine
end

section
/-! Proofs of spec/44_keys_timers.md: the skips on a key, LD Vx, K, and `set_key`. -/

namespace Sys2Proof.Machine

/-! ### Keys -/

theorem State.keyDownAt_of_toNat_eq {s : State} {b : Byte} {k : Key} (h : b.toNat = k.val) :
    s.keyDownAt b = s.key[k] := by
  simp [State.keyDownAt, h]

theorem toNat_keyByte (k : Key) : (keyByte k).toNat = k.val := Nat.mod_eq_of_lt (by omega)

/-! ### Waiting for a key (R213, R218) -/

/-- The core waits at LD Vx, K: it runs, and fetches that instruction with no key latched. -/
structure State.WaitsAt (s : State) (x : Reg) : Prop where
  fault : s.fault = none
  pc : s.pc.toNat ≤ 0x0FFE
  lk : s.lk = none
  word : decode s.fetchWord = .waitKey x

/-- A waiting step counts, and does nothing else. -/
theorem step_of_waitsAt {s : State} {x : Reg} (h : s.WaitsAt x) : step s = .next s.countStep.dropRnd := by
  rw [step_of_decode h.fault h.pc h.word rfl, resultOf_waitKey_none h.lk]

theorem waitsAt_countStep_dropRnd {s : State} {x : Reg} (h : s.WaitsAt x) : s.countStep.dropRnd.WaitsAt x where
  fault := by simpa using h.fault
  pc := by simpa using h.pc
  lk := by simpa using h.lk
  word := by
    have hbyte : ∀ a, s.countStep.dropRnd.byteAt a = s.byteAt a := keptExcept_countStep_dropRnd s .mem (by decide)
    rw [State.fetchWord, hbyte, hbyte, State.dropRnd_pc, State.countStep_pc]
    exact h.word

/-- Any number of steps leaves a waiting core waiting, and touches neither its pc nor its registers. -/
theorem run_of_waitsAt {x : Reg} (n : Nat) : ∀ {s : State}, s.WaitsAt x →
    ∃ t, Host.Core.run core n s = .next t ∧ t.WaitsAt x ∧ t.pc = s.pc ∧ ∀ r, t.reg r = s.reg r := by
  induction n with
  | zero => exact fun {s} h => ⟨s, rfl, h, rfl, fun _ => rfl⟩
  | succ n ih =>
    intro s h
    obtain ⟨t, ht, hwaits, hpc, hreg⟩ := ih (waitsAt_countStep_dropRnd h)
    refine ⟨t, (core_run_succ n (step_of_waitsAt h)).trans ht, hwaits, hpc.trans (State.countStep_pc s), fun r => ?_⟩
    exact (hreg r).trans (keptExcept_countStep_dropRnd s .v (by decide) r)

/-- The step after a press stores the key, empties the latch and advances. -/
theorem step_of_waitsAt_of_press {s : State} {x : Reg} (h : s.WaitsAt x) (k : Key) :
    ∃ u, step (s.setKey k true) = .next u ∧ u.pc = s.pc + 2 ∧ (u.reg x).toNat = k.val ∧ u.lk = none := by
  refine ⟨_, step_of_decode (s := s.setKey k true) h.fault h.pc h.word rfl, ?_⟩
  rw [resultOf_waitKey_some (s := s.setKey k true) (k := k) rfl]
  refine ⟨by simp, ?_, by simp⟩
  rw [keptExcept_countStep_dropRnd _ .v (by decide) x, State.reg_advance, State.reg_setLK, State.reg_setReg_same,
    toNat_keyByte]

/-! ### The obligations -/

/-- Settles O54: both skips are `skipIf` on the key the register names; above 0x0F they are the fault table's row. -/
theorem skipsOnAKey : Obligations.SkipsOnAKey := by
  intro x s
  refine ⟨fun k hk => ?_, fun hout => ?_⟩
  · have hin : ¬ 0x0F < (s.reg x).toNat := by omega
    have hdown : faultOf (.skipIfKeyDown x) s = none := if_neg hin
    have hup : faultOf (.skipIfKeyUp x) s = none := if_neg hin
    rw [exec_of_faultOf_none hdown, exec_of_faultOf_none hup, resultOf, resultOf, State.keyDownAt_of_toNat_eq hk]
    exact ⟨congrArg _ (State.skipIf_eq_of_iff Iff.rfl s),
      congrArg _ (State.skipIf_eq_of_iff (Bool.not_eq_true' _).to_iff s)⟩
  · exact ⟨exec_of_faultOf_some_of_word (if_pos hout) (ofNat_eq_wordXKK_of_fixed (by decide) x),
      exec_of_faultOf_some_of_word (if_pos hout) (ofNat_eq_wordXKK_of_fixed (by decide) x)⟩

/-- Settles O56: the two results of LD Vx, K, by the latch. -/
theorem waitKeyConsumesTheLatch : Obligations.WaitKeyConsumesTheLatch := by
  intro x s
  have hexec : exec (.waitKey x) s = .next (resultOf (.waitKey x) s) := exec_of_faultOf_none rfl
  refine ⟨fun hlk => by rw [hexec, resultOf_waitKey_none hlk], fun k hlk => ?_⟩
  refine ⟨_, hexec, ?_, ?_, fun r hr => reg_resultOf (by simpa [writesReg] using hr) s, ?_,
    (keptExcept_resultOf (.waitKey x) s).mono (by simp [writes])⟩ <;> rw [resultOf_waitKey_some hlk]
  · rw [State.reg_advance, State.reg_setLK, State.reg_setReg_same, toNat_keyByte]
  · simp
  · simp

/-- Settles O57: the core waits through the n steps (`run_of_waitsAt`), and a press ends the wait
(`step_of_waitsAt_of_press`). -/
theorem keyWaitHoldsUntilAPress : Obligations.KeyWaitHoldsUntilAPress := by
  intro n x s hfault hpc hlk hword
  have hdecode : decode s.fetchWord = .waitKey x :=
    decode_of_eq_encode rfl (hword.trans (ofNat_eq_wordXKK_of_fixed (by decide) x))
  obtain ⟨t, ht, hwaits, htpc, hreg⟩ := run_of_waitsAt n ⟨hfault, hpc, hlk, hdecode⟩
  exact ⟨t, ht, htpc, hwaits.lk, hreg, fun k => htpc ▸ step_of_waitsAt_of_press hwaits k⟩

/-- Settles O58: `set_key` writes one slot of KEY, and the latch on a press; `keptExcept_setKey` is the frame. -/
theorem setKeyWritesKeyAndLatch : Obligations.SetKeyWritesKeyAndLatch := by
  intro s k pressed
  refine ⟨fun j => ?_, rfl, keptExcept_setKey s k pressed⟩
  simp [State.keyDown, Vector.getElem_set, Fin.ext_iff, eq_comm]

end Sys2Proof.Machine
end
